-- ==== Sys2Proof/Word.lean ====
section
/-! DEFINITION. The byte and the byte sequence (spec/00_scope.md R12). -/

namespace Sys2Proof

/-- A byte: an unsigned integer in 0..255 (R12). -/
abbrev Byte := BitVec 8

/-- A byte sequence, the first received (or first transmitted) byte at the head (R12, R53). -/
abbrev Bytes := List Byte

end Sys2Proof
end

