-- ==== Sys2Proof/Config.lean ====
section
/-! DEFINITION. The FrameConfig of one decoder instance and the options record CONFIGURE is given
(spec/00_scope.md R9, 10_state.md R27, 40_configuration.md R100). Implementation parameters that the spec leaves open
(`PORT_BINDING`, `W_POS`, R11) change no rule and have no field here. -/

namespace Sys2Proof

/-- The FrameConfig: the block's only control values (R27). `delimiter` is exactly 8 bits, the others are unbounded
naturals (D4, D24). -/
structure FrameConfig where
  delimiter : Byte
  packetOverhead : Nat
  lengthBytes : Nat
  lengthOffset : Nat
  maxLen : Nat
deriving DecidableEq, Repr

/-- The operand of CONFIGURE: each of the five fields present or absent (R100). -/
structure Options where
  delimiter : Option Byte := none
  packetOverhead : Option Nat := none
  lengthBytes : Option Nat := none
  lengthOffset : Option Nat := none
  maxLen : Option Nat := none
deriving DecidableEq, Repr

end Sys2Proof
end

