-- ==== Sys2Proof/Syntax.lean ====
section
/-! DEFINITION. The operations of the block (one constructor per row of spec/opcode_table.json), the port events they
are decoded from, and the conditions (spec/30_encoding.md R81, R82; 41_decoder_host_ops.md R110; 60_exceptions.md R180,
R181). -/

namespace Sys2Proof

/-- The four formats of the operation table (R82). -/
inductive Format where
  | hdr
  | cmd
  | step
  | byte
deriving DecidableEq, Repr

/-- The operations, in the table's order; operands are the row's fields (R81, R82). -/
inductive Instr where
  /-- HDR.GENERIC (R71): DELIM, the PAD bytes before LEN, the LEN bytes, the PAD bytes after LEN. -/
  | hdrGeneric (delim : Byte) (padBefore len padAfter : Bytes)
  /-- HDR.DEFAULT (R73): the eight L bits. -/
  | hdrDefault (len : Byte)
  /-- HDR.SCENARIO (R74): the sixteen L bits, as a number (byte 1 is L[7:0], byte 2 is L[15:8]). -/
  | hdrScenario (len : BitVec 16)
  /-- HDR.PADDED (R71): the P bits of byte 1, the L bits of byte 2, the P bits of byte 3. -/
  | hdrPadded (pad1 len pad2 : Byte)
  /-- CONFIGURE (R100). -/
  | configure (opts : Options)
  /-- RESET (R111). -/
  | reset
  /-- END (R112). -/
  | endStream
  /-- PUSH (R113). -/
  | push (b : Byte)
  /-- FEED (R114). -/
  | feed (chunk : Bytes)
  /-- ENCODE (R150). -/
  | encode (payload : Bytes)
  /-- EXTRACT (R120). -/
  | extract
  /-- X.SCAN (R121). -/
  | xScan
  /-- X.ALIGN (R122): `p = find(buf, delimiter)`. -/
  | xAlign (p : Nat)
  /-- X.HWAIT (R123). -/
  | xHwait
  /-- X.LEN (R124): `L = LE(buf[lengthOffset .. H))`. -/
  | xLen (l : Nat)
  /-- X.RESYNC (R125): the rejected length. -/
  | xResync (l : Nat)
  /-- X.BWAIT (R126). -/
  | xBwait
  /-- X.EMIT (R127): `f = buf[0 .. packetOverhead + L)`. -/
  | xEmit (f : Bytes)
  /-- B.HUNT.DELIM (R162). -/
  | bHuntDelim (b : Byte)
  /-- B.HUNT.NOISE (R161). -/
  | bHuntNoise (b : Byte)
  /-- B.HEADER.ACC (R163). -/
  | bHeaderAcc (b : Byte)
  /-- B.HEADER.LAST (R164). -/
  | bHeaderLast (b : Byte)
  /-- B.BODY.ACC (R165). -/
  | bBodyAcc (b : Byte)
  /-- B.BODY.LAST (R166). -/
  | bBodyLast (b : Byte)
deriving DecidableEq, Repr

/-- The format of the row an operation stands for (R82). -/
def Instr.format : Instr → Format
  | .hdrGeneric _ _ _ _ => .hdr
  | .hdrDefault _ => .hdr
  | .hdrScenario _ => .hdr
  | .hdrPadded _ _ _ => .hdr
  | .configure _ => .cmd
  | .reset => .cmd
  | .endStream => .cmd
  | .push _ => .cmd
  | .feed _ => .cmd
  | .encode _ => .cmd
  | .extract => .step
  | .xScan => .step
  | .xAlign _ => .step
  | .xHwait => .step
  | .xLen _ => .step
  | .xResync _ => .step
  | .xBwait => .step
  | .xEmit _ => .step
  | .bHuntDelim _ => .byte
  | .bHuntNoise _ => .byte
  | .bHeaderAcc _ => .byte
  | .bHeaderLast _ => .byte
  | .bBodyAcc _ => .byte
  | .bBodyLast _ => .byte

/-- One transaction on a port, before it is decoded (R110, R81). The operations have no binary form: a CMD row is
selected by the kind of event. DESIGN CHOICE (assumption log 4): the events of formats HDR, BYTE and STEP are this
model's way of presenting a header, an arriving byte for the per-byte automaton, and one pass of the decoder itself. -/
inductive Event where
  /-- CFG: an instance is constructed from this record. -/
  | cfg (opts : Options)
  /-- CTL: the driver's reset event. -/
  | ctlReset
  /-- CTL: the driver's end-of-stream event. -/
  | ctlEnd
  /-- IN: one byte, taken by PUSH. -/
  | inByte (b : Byte)
  /-- IN: a chunk, taken by FEED. -/
  | inChunk (chunk : Bytes)
  /-- A call of the companion encoder. -/
  | call (payload : Bytes)
  /-- IN: the bytes of one whole frame header, read by its layout (format HDR). -/
  | header (bytes : Bytes)
  /-- IN: one byte, taken by the per-byte automaton (format BYTE). -/
  | serial (b : Byte)
  /-- The decoder runs EXTRACT. -/
  | run
  /-- The decoder takes the step that the content of `buf` selects, before the length has been read in this pass. -/
  | select
  /-- The decoder takes the step that follows X.LEN in this pass. -/
  | afterLen
deriving DecidableEq, Repr

/-- The format of the rows an event is decoded to. -/
def Event.format : Event → Format
  | .cfg _ => .cmd
  | .ctlReset => .cmd
  | .ctlEnd => .cmd
  | .inByte _ => .cmd
  | .inChunk _ => .cmd
  | .call _ => .cmd
  | .header _ => .hdr
  | .serial _ => .byte
  | .run => .step
  | .select => .step
  | .afterLen => .step

/-- The causes of a ConfigError (R101, R181). -/
inductive ConfigCause where
  /-- `LENGTH_BYTES_RANGE`. -/
  | lengthBytesRange
  /-- `FIELD_EXCEEDS_HEADER`. -/
  | fieldExceedsHeader
deriving DecidableEq, Repr

/-- The causes of an EncodeRangeError (R152, R181). -/
inductive EncodeCause where
  /-- `LENGTH_UNREPRESENTABLE`. -/
  | lengthUnrepresentable
  /-- `LENGTH_EXCEEDS_MAXLEN`. -/
  | lengthExceedsMaxLen
deriving DecidableEq, Repr

/-- The three conditions, a closed enumeration without numeric codes (R180, D16). -/
inductive Condition where
  /-- E1, raised by CONFIGURE only. -/
  | configError (cause : ConfigCause)
  /-- E2, absorbed by X.RESYNC; carries the rejected length. -/
  | resyncEvent (l : Nat)
  /-- E3, raised by ENCODE only. -/
  | encodeRangeError (cause : EncodeCause)
deriving DecidableEq, Repr

/-- A diagnostic event; `RESYNC(L)` is the only kind (R31, R188). -/
inductive DiagEvent where
  | resync (l : Nat)
deriving DecidableEq, Repr

end Sys2Proof
end

