-- ==== Sys2Proof/Machine/Operands.lean ====
section
/-! DEFINITION. The operand forms: byte-order helpers, the primitives over the accumulator (MemRead, MemWrite, Discard,
find, slices), the derived constants of a configuration, the configuration record with its defaults and checks, and the
header layouts (spec/00_scope.md R10, R12, R13; 20_memory.md R52, R63; 30_encoding.md R71 to R74; 40_configuration.md
R100 to R102). -/

namespace Sys2Proof.Machine

/-! ### Byte sequences (R12) -/

/-- `LE(s)`: the unsigned little-endian value of a byte sequence, first byte least significant (R12, R52). -/
def le : Bytes → Nat
  | [] => 0
  | b :: s => b.toNat + 256 * le s

/-- `LEbytes_k(v)`: element `i` is `floor(v / 256^i) mod 256` (R12, which defines it for `v < 2^(8k)` only). DESIGN CHOICE
(assumption log 16): a larger `v` is reduced modulo `2^(8k)`; no operation asks for it. -/
def leBytes (k v : Nat) : Bytes := (List.range k).map fun i => BitVec.ofNat 8 (v / 256 ^ i % 256)

/-- `find(s, d)`: the least index that holds `d`, or NONE (R12). -/
def find : Bytes → Byte → Option Nat
  | [], _ => none
  | b :: s, d => if b = d then some 0 else (find s d).map (· + 1)

/-- `s[a..b)`, the half-open slice (R12). DESIGN CHOICE (assumption log 16): indices past the end give no element. -/
def slice (s : Bytes) (a b : Nat) : Bytes := (s.drop a).take (b - a)

/-! ### The primitives over the accumulator (R13, R63) -/

/-- `MemRead(addr, k)`: defined only when `addr + k <= |buf|` and `k` is 1 to 4; little-endian (R13, R63). -/
def memRead (buf : Bytes) (addr k : Nat) : Option Nat :=
  if addr + k ≤ buf.length ∧ 1 ≤ k ∧ k ≤ 4 then some (le (slice buf addr (addr + k))) else none

/-- `MemWrite(addr, k, v)`: defined only for `addr = |buf|`, an append (R13, R63). DESIGN CHOICE (assumption log 16): of a
`v` that `k` bytes cannot hold, the low `k` bytes are appended; no operation asks for it. -/
def memWrite (buf : Bytes) (addr k v : Nat) : Option Bytes :=
  if addr = buf.length then some (buf ++ leBytes k v) else none

/-- `Discard(k)`: the first `k` bytes leave the accumulator (R13, which defines it for `k <= |buf|` only). DESIGN CHOICE
(assumption log 16): a larger `k` leaves the accumulator empty; no operation asks for it. -/
def discardFront (buf : Bytes) (k : Nat) : Bytes := buf.drop k

/-! ### Derived constants of a configuration (R10) -/

/-- `H`: the bytes needed, from the delimiter, to read the length (R10). -/
def headerNeed (cfg : FrameConfig) : Nat := cfg.lengthOffset + cfg.lengthBytes

/-- `LREP`: the largest value the length field can hold (R10). -/
def lrep (cfg : FrameConfig) : Nat := 2 ^ (8 * cfg.lengthBytes) - 1

/-- `LMAX`: the largest payload length the decoder can accept (R10). -/
def lmax (cfg : FrameConfig) : Nat := min cfg.maxLen (lrep cfg)

/-- `CAP`: the length in bytes of the longest frame (R10). -/
def cap (cfg : FrameConfig) : Nat := cfg.packetOverhead + lmax cfg

/-! ### The length field (R72, R124) -/

/-- The value of the length field of the candidate at the front of `buf`; no value while fewer than `H` bytes are there
(R72, R123, R124). -/
def lengthAt (cfg : FrameConfig) (buf : Bytes) : Option Nat := memRead buf cfg.lengthOffset cfg.lengthBytes

/-! ### The configuration record (R100 to R102) -/

/-- Each absent field takes its own default, independently of the others (R100, D23). -/
def fillDefaults (o : Options) : FrameConfig where
  delimiter := o.delimiter.getD 0xAA
  packetOverhead := o.packetOverhead.getD 2
  lengthBytes := o.lengthBytes.getD 1
  lengthOffset := o.lengthOffset.getD 1
  maxLen := o.maxLen.getD 255

/-- `Validate(cfg)`: no cause is OK; the width is checked first (R101). -/
def validate (cfg : FrameConfig) : Option ConfigCause :=
  if cfg.lengthBytes < 1 ∨ 4 < cfg.lengthBytes then some .lengthBytesRange
  else if cfg.packetOverhead < cfg.lengthOffset + cfg.lengthBytes then some .fieldExceedsHeader
  else none

/-- `Admitted(cfg)`: the configurations the spec gives a meaning to (R102). -/
def admitted (cfg : FrameConfig) : Bool := validate cfg == none && decide (1 ≤ cfg.lengthOffset)

/-- Configuration `D`: every field at its default (R9). -/
def defaultConfig : FrameConfig := ⟨0xAA, 2, 1, 1, 255⟩

/-- Configuration `S` of the row HDR.SCENARIO (R74). -/
def scenarioConfig : FrameConfig := ⟨0x69, 3, 2, 1, 255⟩

/-- Configuration `P` of the row HDR.PADDED (R82, 95_test_vectors.md). -/
def paddedConfig : FrameConfig := ⟨0x7E, 4, 1, 2, 16⟩

/-! ### The header layouts (R71, R73, R74): the bytes of a header, byte 0 first -/

/-- HDR.GENERIC: DELIM, PAD, LEN, PAD (R71). -/
def genericHeader (delim : Byte) (padBefore len padAfter : Bytes) : Bytes := delim :: (padBefore ++ len ++ padAfter)

/-- HDR.DEFAULT: `10101010 LLLLLLLL` (R73). -/
def defaultHeader (len : Byte) : Bytes := [0xAA, len]

/-- HDR.SCENARIO: `01101001`, then the low byte of LEN, then the high byte (R74). -/
def scenarioHeader (len : BitVec 16) : Bytes := [0x69, len.extractLsb' 0 8, len.extractLsb' 8 8]

/-- HDR.PADDED: `01111110 PPPPPPPP LLLLLLLL PPPPPPPP` (R71). -/
def paddedHeader (pad1 len pad2 : Byte) : Bytes := [0x7E, pad1, len, pad2]

/-- A whole frame that the decoder of `cfg` accepts: the delimiter first, a valid length field, and exactly
`packetOverhead + L` bytes (R70, R71, R155). PAD and payload values are not examined (R76, R79). -/
def isFrame (cfg : FrameConfig) (f : Bytes) : Bool :=
  f.head? == some cfg.delimiter &&
    match lengthAt cfg f with
    | some l => decide (l ≤ cfg.maxLen) && decide (f.length = cfg.packetOverhead + l)
    | none => false

end Sys2Proof.Machine
end

