-- ==== Sys2Proof/Machine/Flags.lean ====
section
/-! DEFINITION. The status views. The block has no flags, condition codes or status word; its only status view is the
derived `phase`, with the derived registers `L` and `need` (spec/10_state.md R22, R26) and the register triple of the
per-byte automaton (44_byte_serial_fsm.md R160). -/

namespace Sys2Proof.Machine

/-- The three phases (R26). -/
inductive Phase where
  | hunt
  | header
  | body
deriving DecidableEq, Repr

/-- Shape (b) of R22: the delimiter seen, the length field not complete. -/
def shapeHeader (cfg : FrameConfig) (buf : Bytes) : Bool :=
  buf.head? == some cfg.delimiter && decide (buf.length < headerNeed cfg)

/-- Shape (c) of R22: the length valid, the frame not complete. -/
def shapeBody (cfg : FrameConfig) (buf : Bytes) : Bool :=
  buf.head? == some cfg.delimiter && decide (headerNeed cfg ≤ buf.length) &&
    match lengthAt cfg buf with
    | some l => decide (l ≤ cfg.maxLen) && decide (buf.length < cfg.packetOverhead + l)
    | none => false

/-- The normal form of a quiescent accumulator: shape (a), (b) or (c) of R22. -/
def normalForm (cfg : FrameConfig) (buf : Bytes) : Bool := buf.isEmpty || shapeHeader cfg buf || shapeBody cfg buf

/-- `phase`, defined at quiescence only (R26): HUNT if `n = 0`, HEADER if `1 <= n < H`, BODY if `n >= H`. -/
def phaseOf (cfg : FrameConfig) (buf : Bytes) : Option Phase :=
  if normalForm cfg buf then
    some (if buf.isEmpty then .hunt else if buf.length < headerNeed cfg then .header else .body)
  else none

/-- The derived register `L`, defined only in BODY (R26). -/
def latchedLength (cfg : FrameConfig) (buf : Bytes) : Option Nat :=
  if phaseOf cfg buf = some .body then lengthAt cfg buf else none

/-- The derived register `need`: `H - n` in HEADER, `packetOverhead + L - n` in BODY, undefined in HUNT (R26). -/
def needOf (cfg : FrameConfig) (buf : Bytes) : Option Nat :=
  match phaseOf cfg buf with
  | some .header => some (headerNeed cfg - buf.length)
  | some .body => (latchedLength cfg buf).map fun l => cfg.packetOverhead + l - buf.length
  | _ => none

/-- The state of the per-byte automaton: `(phase, buf, L)`, `L` meaningful only in BODY (R160). -/
structure Automaton where
  phase : Phase
  buf : Bytes
  len : Option Nat
deriving DecidableEq, Repr

/-- The automaton's reset state `(HUNT, [], undefined)` (R160). -/
def automatonReset : Automaton := ⟨.hunt, [], none⟩

/-- The automaton's view of a quiescent accumulator (R160, R26); none when the accumulator is not in normal form. -/
def automatonOf (cfg : FrameConfig) (buf : Bytes) : Option Automaton :=
  (phaseOf cfg buf).map fun ph => ⟨ph, buf, latchedLength cfg buf⟩

end Sys2Proof.Machine
end

