-- ==== Sys2Proof/Machine/Extraction.lean ====
section
/-! DEFINITION. EXTRACT as a function of the accumulator and the configuration: the decision tree of its loop body and
the loop (spec/42_decoder_extraction.md R120 to R128, R142). -/

namespace Sys2Proof.Machine

/-- What one pass of the loop of R120 finds. -/
inductive Choice where
  /-- `n = 0`: exit, quiescent in HUNT. -/
  | empty
  /-- X.SCAN: no delimiter anywhere. -/
  | scan
  /-- X.ALIGN: the first delimiter at `p > 0`. -/
  | align (p : Nat)
  /-- X.HWAIT: exit, the length field is not complete. -/
  | hwait
  /-- X.LEN then X.RESYNC: the length exceeds `maxLen`. -/
  | resync (l : Nat)
  /-- X.LEN then X.BWAIT: exit, the frame is not complete. -/
  | bwait (l : Nat)
  /-- X.LEN then X.EMIT: a complete frame is at the front. -/
  | emit (l : Nat)
deriving DecidableEq, Repr

/-- The decision tree of R120, in the order R142 fixes: presence of a delimiter, header completeness (`lengthAt` has no
value while `n < H`), length validity, frame completeness. -/
def choose (cfg : FrameConfig) (buf : Bytes) : Choice :=
  if buf.isEmpty then .empty
  else
    match find buf cfg.delimiter with
    | none => .scan
    | some (p + 1) => .align (p + 1)
    | some 0 =>
      match lengthAt cfg buf with
      | none => .hwait
      | some l =>
        if cfg.maxLen < l then .resync l
        else if buf.length < cfg.packetOverhead + l then .bwait l
        else .emit l

/-- The length X.LEN reads in this pass, where it reads one (R124). -/
def lengthRead : Choice → Option Nat
  | .resync l => some l
  | .bwait l => some l
  | .emit l => some l
  | .empty => none
  | .scan => none
  | .align _ => none
  | .hwait => none

/-- What EXTRACT returns: the accumulator left, the packets and the events, in order (R120). -/
structure Extraction where
  buf : Bytes
  packets : List Bytes
  events : List DiagEvent
deriving DecidableEq, Repr

/-- The loop of R120 with a bound on the number of passes. -/
def extractLoop (cfg : FrameConfig) : Nat → Bytes → Extraction
  | 0, buf => ⟨buf, [], []⟩
  | passes + 1, buf =>
    match choose cfg buf with
    | .empty => ⟨buf, [], []⟩
    | .scan => extractLoop cfg passes (discardFront buf buf.length)
    | .align p => extractLoop cfg passes (discardFront buf p)
    | .hwait => ⟨buf, [], []⟩
    | .resync l =>
      let r := extractLoop cfg passes (discardFront buf 1)
      { r with events := .resync l :: r.events }
    | .bwait _ => ⟨buf, [], []⟩
    | .emit l =>
      let r := extractLoop cfg passes (discardFront buf (cfg.packetOverhead + l))
      { r with packets := buf.take (cfg.packetOverhead + l) :: r.packets }

/-- EXTRACT (R120). Every pass that does not exit shortens `buf`, so `|buf|` passes suffice (R128)
under an admitted configuration; what it gives under another, where no operation answers it, is assumption log 16. -/
def extract (cfg : FrameConfig) (buf : Bytes) : Extraction := extractLoop cfg buf.length buf

end Sys2Proof.Machine
end

