-- ==== Sys2Proof/WellFormed.lean ====
section
/-! DEFINITION. Which operations are well formed under a configuration: the operands that a row's fields can hold
(spec/30_encoding.md R71 to R74, R82; 42_decoder_extraction.md R122 to R127; 44_byte_serial_fsm.md R161, R162). -/

namespace Sys2Proof

open Machine

/-- The operands fit the row under `cfg`. A header row with a configuration of its own belongs to that configuration
(R82), and HDR.GENERIC stands for the layout of every other one (assumption log 6). -/
def wellFormed (cfg : FrameConfig) : Instr → Bool
  | .hdrGeneric d pre len post =>
    d == cfg.delimiter && decide (pre.length + 1 = cfg.lengthOffset) && decide (len.length = cfg.lengthBytes) &&
      decide (headerNeed cfg + post.length = cfg.packetOverhead) &&
      cfg != defaultConfig && cfg != scenarioConfig && cfg != paddedConfig
  | .hdrDefault _ => cfg == defaultConfig
  | .hdrScenario _ => cfg == scenarioConfig
  | .hdrPadded _ _ _ => cfg == paddedConfig
  | .configure _ => true
  | .reset => true
  | .endStream => true
  | .push _ => true
  | .feed _ => true
  | .encode _ => true
  | .extract => true
  | .xScan => true
  | .xAlign p => decide (0 < p)
  | .xHwait => true
  | .xLen l => decide (l ≤ lrep cfg)
  | .xResync l => decide (cfg.maxLen < l) && decide (l ≤ lrep cfg)
  | .xBwait => true
  | .xEmit f => isFrame cfg f
  | .bHuntDelim b => b == cfg.delimiter
  | .bHuntNoise b => b != cfg.delimiter
  | .bHeaderAcc _ => true
  | .bHeaderLast _ => true
  | .bBodyAcc _ => true
  | .bBodyLast _ => true

end Sys2Proof
end

