-- ==== Sys2Proof/Decode.lean ====
section
/-! DEFINITION. Decoding: which operation an event is, given the configuration and the accumulator (spec/30_encoding.md
R75, R81, R82), total and rejecting by name; and the encoder. The operations have no binary form (R81); what has one is
the header (format HDR) and the arriving byte (format BYTE, by mask and match). -/

namespace Sys2Proof

open Machine

/-- Why no row applies to an event. -/
inductive DecodeError where
  /-- The configuration is not admitted: no rule applies (R102). -/
  | notAdmitted
  /-- The bytes presented as a header are not `packetOverhead` bytes (R70). -/
  | headerLength
  /-- The bytes presented as a header do not start with the delimiter (R71). -/
  | noDelimiter
  /-- The automaton has no state on an accumulator that is not quiescent (R160). -/
  | notQuiescent
  /-- The accumulator is empty: the loop exits and no step is taken (R120). -/
  | nothingBuffered
  /-- No length has been read in this pass (R124). -/
  | noLengthRead
deriving DecidableEq, Repr

/-! ### Format BYTE: the rows of the per-byte automaton (R82, R161 to R167) -/

/-- The six BYTE rows. -/
inductive ByteKind where
  | huntDelim
  | huntNoise
  | headerAcc
  | headerLast
  | bodyAcc
  | bodyLast
deriving DecidableEq, Repr

/-- One BYTE row: its phase, its mask and its match (R82). -/
structure ByteRow where
  kind : ByteKind
  phase : Phase
  mask : Byte
  pattern : Byte
deriving DecidableEq, Repr

/-- The BYTE rows in the order they are tried: B.HUNT.DELIM before the catch-all B.HUNT.NOISE (R82). -/
def byteTable (cfg : FrameConfig) : List ByteRow :=
  [ ⟨.huntDelim, .hunt, 0xFF, cfg.delimiter⟩,
    ⟨.huntNoise, .hunt, 0x00, 0x00⟩,
    ⟨.headerAcc, .header, 0x00, 0x00⟩,
    ⟨.headerLast, .header, 0x00, 0x00⟩,
    ⟨.bodyAcc, .body, 0x00, 0x00⟩,
    ⟨.bodyLast, .body, 0x00, 0x00⟩ ]

/-- A row's `select` condition on the counters (R161 to R166). -/
def byteSelect (cfg : FrameConfig) (a : Automaton) : ByteKind → Bool
  | .huntDelim => true
  | .huntNoise => true
  | .headerAcc => decide (a.buf.length + 1 < headerNeed cfg)
  | .headerLast => decide (a.buf.length + 1 = headerNeed cfg)
  | .bodyAcc => a.len.any fun l => decide (a.buf.length + 1 < cfg.packetOverhead + l)
  | .bodyLast => a.len.any fun l => decide (a.buf.length + 1 = cfg.packetOverhead + l)

/-- A row applies when the automaton is in its phase, its `select` condition holds, and `(b AND mask) = match` (R82). -/
def byteApplies (cfg : FrameConfig) (a : Automaton) (b : Byte) (r : ByteRow) : Bool :=
  r.phase == a.phase && byteSelect cfg a r.kind && b &&& r.mask == r.pattern

/-- The row that an arriving byte takes: the first that applies (R82, R167). -/
def byteRow (cfg : FrameConfig) (a : Automaton) (b : Byte) : Option ByteKind :=
  ((byteTable cfg).find? (byteApplies cfg a b)).map (·.kind)

/-- The operation of a BYTE row with its operand. -/
def byteInstr : ByteKind → Byte → Instr
  | .huntDelim, b => .bHuntDelim b
  | .huntNoise, b => .bHuntNoise b
  | .headerAcc, b => .bHeaderAcc b
  | .headerLast, b => .bHeaderLast b
  | .bodyAcc, b => .bBodyAcc b
  | .bodyLast, b => .bBodyLast b

/-- The row that an arriving byte takes on an accumulator, through the automaton's view of it. -/
def byteKindAt (cfg : FrameConfig) (buf : Bytes) (b : Byte) : Option ByteKind :=
  (automatonOf cfg buf).bind fun a => byteRow cfg a b

/-! ### Format HDR (R70 to R75) -/

/-- Read a header by the layout of `cfg`: the row of the three named configurations where `cfg` is one of them, the
generic row elsewhere (R82). The PAD bytes are taken as they are (R76). -/
def decodeHeader (cfg : FrameConfig) (bytes : Bytes) : Except DecodeError Instr :=
  if !admitted cfg then .error .notAdmitted
  else if bytes.length ≠ cfg.packetOverhead then .error .headerLength
  else if bytes.head? ≠ some cfg.delimiter then .error .noDelimiter
  else if cfg = defaultConfig then .ok (.hdrDefault (bytes.getD 1 0))
  else if cfg = scenarioConfig then .ok (.hdrScenario (bytes.getD 2 0 ++ bytes.getD 1 0))
  else if cfg = paddedConfig then .ok (.hdrPadded (bytes.getD 1 0) (bytes.getD 2 0) (bytes.getD 3 0))
  else
    .ok (.hdrGeneric cfg.delimiter (slice bytes 1 cfg.lengthOffset) (slice bytes cfg.lengthOffset (headerNeed cfg))
      (slice bytes (headerNeed cfg) cfg.packetOverhead))

/-! ### Format STEP: selected by the content of `buf` (R81) -/

/-- The step that a pass starts with; where the length field is complete that is X.LEN (R120). -/
def stepOf : Choice → Except DecodeError Instr
  | .empty => .error .nothingBuffered
  | .scan => .ok .xScan
  | .align p => .ok (.xAlign p)
  | .hwait => .ok .xHwait
  | .resync l => .ok (.xLen l)
  | .bwait l => .ok (.xLen l)
  | .emit l => .ok (.xLen l)

/-- The step that follows X.LEN in the same pass (R124). -/
def stepAfterLen (cfg : FrameConfig) (buf : Bytes) : Choice → Except DecodeError Instr
  | .empty => .error .nothingBuffered
  | .scan => .error .noLengthRead
  | .align _ => .error .noLengthRead
  | .hwait => .error .noLengthRead
  | .resync l => .ok (.xResync l)
  | .bwait _ => .ok .xBwait
  | .emit l => .ok (.xEmit (buf.take (cfg.packetOverhead + l)))

/-! ### The decoder and the encoder -/

/-- The operation an event is (R81, R82). -/
def decode (cfg : FrameConfig) (buf : Bytes) : Event → Except DecodeError Instr
  | .cfg o => .ok (.configure o)
  | .ctlReset => .ok .reset
  | .ctlEnd => .ok .endStream
  | .inByte b => .ok (.push b)
  | .inChunk c => .ok (.feed c)
  | .call p => .ok (.encode p)
  | .header bytes => decodeHeader cfg bytes
  | .serial b =>
    if !admitted cfg then .error .notAdmitted
    else
      match byteKindAt cfg buf b with
      | some k => .ok (byteInstr k b)
      | none => .error .notQuiescent
  | .run => .ok .extract
  | .select => if !admitted cfg then .error .notAdmitted else stepOf (choose cfg buf)
  | .afterLen => if !admitted cfg then .error .notAdmitted else stepAfterLen cfg buf (choose cfg buf)

/-- The event of an operation (R71 to R74, R81, R82). -/
def encode : Instr → Event
  | .hdrGeneric d pre len post => .header (genericHeader d pre len post)
  | .hdrDefault l => .header (defaultHeader l)
  | .hdrScenario l => .header (scenarioHeader l)
  | .hdrPadded p l q => .header (paddedHeader p l q)
  | .configure o => .cfg o
  | .reset => .ctlReset
  | .endStream => .ctlEnd
  | .push b => .inByte b
  | .feed c => .inChunk c
  | .encode p => .call p
  | .extract => .run
  | .xScan => .select
  | .xAlign _ => .select
  | .xHwait => .select
  | .xLen _ => .select
  | .xResync _ => .afterLen
  | .xBwait => .afterLen
  | .xEmit _ => .afterLen
  | .bHuntDelim b => .serial b
  | .bHuntNoise b => .serial b
  | .bHeaderAcc b => .serial b
  | .bHeaderLast b => .serial b
  | .bBodyAcc b => .serial b
  | .bBodyLast b => .serial b

/-- The selecting condition of a row (R81): for the rows that the content of `buf` selects, that this very step or
transition is the one selected; every other operation is selected by the event alone. -/
def selected (cfg : FrameConfig) (buf : Bytes) : Instr → Bool
  | .hdrGeneric _ _ _ _ => true
  | .hdrDefault _ => true
  | .hdrScenario _ => true
  | .hdrPadded _ _ _ => true
  | .configure _ => true
  | .reset => true
  | .endStream => true
  | .push _ => true
  | .feed _ => true
  | .encode _ => true
  | .extract => true
  | .xScan => choose cfg buf == .scan
  | .xAlign p => choose cfg buf == .align p
  | .xHwait => choose cfg buf == .hwait
  | .xLen l => lengthRead (choose cfg buf) == some l
  | .xResync l => choose cfg buf == .resync l
  | .xBwait => (lengthRead (choose cfg buf)).any fun l => choose cfg buf == .bwait l
  | .xEmit f =>
    (lengthRead (choose cfg buf)).any fun l => choose cfg buf == .emit l && f == buf.take (cfg.packetOverhead + l)
  | .bHuntDelim b => byteKindAt cfg buf b == some .huntDelim
  | .bHuntNoise b => byteKindAt cfg buf b == some .huntNoise
  | .bHeaderAcc b => byteKindAt cfg buf b == some .headerAcc
  | .bHeaderLast b => byteKindAt cfg buf b == some .headerLast
  | .bBodyAcc b => byteKindAt cfg buf b == some .bodyAcc
  | .bBodyLast b => byteKindAt cfg buf b == some .bodyLast

/-! ### The numbering of spec/opcode_table.json (assumption log 7)

The table gives bits to three header rows and to B.HUNT.DELIM. A header row is one number whose most significant byte
is byte 0 of the header, the first to arrive (R82: byte 0 first, each byte most significant bit first). -/

/-- The bytes of a table word, in order of arrival; bits above `nbits` are dropped (assumption log 16). -/
def tableBytes (nbits w : Nat) : Bytes := (leBytes (nbits / 8) w).reverse

/-- The configuration the table's row of this width belongs to (R82). -/
def tableConfig (nbits : Nat) : FrameConfig :=
  if nbits = 24 then scenarioConfig else if nbits = 32 then paddedConfig else defaultConfig

/-- The event a table word arrives as: a single byte is the automaton's, anything longer is a header. -/
def tableEvent (nbits w : Nat) : Event :=
  if nbits = 8 then .serial (BitVec.ofNat 8 w) else .header (tableBytes nbits w)

/-- The operation the decoder reads from a word of the table, on an empty accumulator (phase HUNT). -/
def decodeTableWord (nbits w : Nat) : Option Instr :=
  (decode (tableConfig nbits) [] (tableEvent nbits w)).toOption

end Sys2Proof
end

