-- ==== Sys2Proof/Machine/State.lean ====
section
/-! DEFINITION. The state of one decoder instance (spec/10_state.md R20 to R36), the reasons a step can stop, and the
state after reset. -/

namespace Sys2Proof.Machine

/-- What an operation returned (00_scope.md R13 `return v` and `raise`). -/
inductive Result where
  /-- CONFIGURE returned the new decoder (R100). -/
  | created
  /-- RESET, END, PUSH, FEED and the per-byte transitions return packets (R111 to R114, R116, R160). -/
  | packets (ps : List Bytes)
  /-- EXTRACT returned packets and events to its caller (R120). -/
  | extracted (ps : List Bytes) (es : List DiagEvent)
  /-- ENCODE returned a frame (R151). -/
  | frame (f : Bytes)
  /-- The condition, in place of the result (R187). -/
  | raised (c : Condition)
deriving DecidableEq, Repr

/-- One decoder instance and what the model needs to drive it. -/
structure State where
  /-- The FrameConfig, fixed at construction (R27, R104). -/
  cfg : FrameConfig
  /-- The accumulator: the unconsumed tail of the input stream, oldest byte first (R21). -/
  buf : Bytes
  /-- The output trace: every packet emitted, oldest first (R30). -/
  out : List Bytes
  /-- The diagnostic trace (R31). -/
  diag : List DiagEvent
  /-- The model's own: what the last operation returned (assumption log 3). -/
  result : Result
  /-- The model's own: the driver's events not yet applied, the next one first (assumption log 1). -/
  pending : List Event
deriving DecidableEq, Repr

/-- The spec treats no behaviour as a fault or a stuck state (93_implementation_defined.md, section 1), so there is no
reason to fault. -/
inductive Fault where
deriving DecidableEq, Repr

/-- Why there is no next state. -/
inductive Refusal where
  /-- An operation without a meaning; no arm of `exec` uses it. Safe: the model stops. -/
  | notModelled (mnemonic : String)
  /-- Raised by CONFIGURE with a configuration that passes Validate and has `lengthOffset = 0`, and by every operation
  on an instance whose configuration is not admitted: R102, "a model gives it no step". Safe: the model stops. -/
  | notAdmitted
  /-- Raised by a STEP or BYTE operation in a state where its selecting condition (R81, R161 to R166) does not hold, so
  that the spec gives it no effect. Safe: the model stops. -/
  | notSelected
  /-- Raised by `step` for an event to which no row applies. Safe: the model stops. -/
  | undecodable (why : DecodeError)
deriving DecidableEq, Repr

/-- The instance right after construction with every field absent (R34, R201; the defaults are R9's): the accumulator
and both traces empty. DESIGN CHOICE (assumption logs 1 to 3): which configuration, and the model's own two fields. -/
def State.reset : State where
  cfg := fillDefaults {}
  buf := []
  out := []
  diag := []
  result := .created
  pending := []

/-- The outcome of an operation. -/
abbrev Ans := Host.Outcome State Fault Refusal

end Sys2Proof.Machine
end

