-- ==== Sys2Proof/Machine/Ops.lean ====
section
/-! DEFINITION. The named operations over the state: fetching the next event, the two gates (an admitted configuration,
the selecting condition), the updates of `buf`, `out` and `diag`, and taking a condition (spec/00_scope.md R13;
41_decoder_host_ops.md R111 to R114; 60_exceptions.md R187). -/

namespace Sys2Proof.Machine

/-- The next event of the driver and the state without it (R60: one total order, one at a time). -/
def fetch (s : State) : Option (Event × State) :=
  match s.pending with
  | [] => none
  | e :: rest => some (e, { s with pending := rest })

/-- An operation on an instance: no rule applies where the configuration is not admitted (R102). -/
def onInstance (s next : State) : Ans := if admitted s.cfg then .next next else .refused .notAdmitted

/-- An operation that the content of the accumulator selects (R81): it has an effect only where it is selected. -/
def ifSelected (i : Instr) (s next : State) : Ans :=
  if !admitted s.cfg then .refused .notAdmitted
  else if selected s.cfg s.buf i then .next next
  else .refused .notSelected

/-- The state with another accumulator. -/
def State.withBuf (s : State) (buf : Bytes) : State := { s with buf := buf }

/-- The state with another result (R13 `return v`). -/
def State.returning (s : State) (r : Result) : State := { s with result := r }

/-- `emit OUT(f)`: one packet appended to the output trace (R13, R30). -/
def State.emitOut (s : State) (f : Bytes) : State := { s with out := s.out ++ [f] }

/-- `emit DIAG(e)`: one event appended to the diagnostic trace (R13, R31). -/
def State.emitDiag (s : State) (e : DiagEvent) : State := { s with diag := s.diag ++ [e] }

/-- Taking a condition (R187). ConfigError and EncodeRangeError: the operation returns the condition in place of its
result and has changed nothing else. ResyncEvent: the state change is that of X.RESYNC and nothing else (R125, R183):
the event on DIAG and exactly the spurious delimiter byte dropped. There is no return operation: after a ResyncEvent the
scan resumes within the same operation (R189). -/
def State.takeCondition (s : State) : Condition → State
  | .configError c => s.returning (.raised (.configError c))
  | .resyncEvent l => (s.emitDiag (.resync l)).withBuf (discardFront s.buf 1)
  | .encodeRangeError c => s.returning (.raised (.encodeRangeError c))

/-- Append an extraction's packets to `out` and its events to `diag`, keep its accumulator, return the packets (R113,
R114). -/
def State.deliver (s : State) (r : Extraction) : State :=
  { s with buf := r.buf, out := s.out ++ r.packets, diag := s.diag ++ r.events, result := .packets r.packets }

/-- Accept bytes on IN: append them, extract to quiescence, deliver (R113, R114; atomic, R57). -/
def State.accept (s : State) (bytes : Bytes) : State := s.deliver (extract s.cfg (s.buf ++ bytes))

/-- Return to the initial state: the accumulator emptied, nothing emitted, `cfg`, `out` and `diag` unchanged (R111). -/
def State.cleared (s : State) : State := (s.withBuf []).returning (.packets [])

/-- A new instance at its reset values (R34, R100). What is pending is the driver's, not the instance's. -/
def State.constructed (s : State) (cfg : FrameConfig) : State :=
  { cfg := cfg, buf := [], out := [], diag := [], result := .created, pending := s.pending }

end Sys2Proof.Machine
end

