-- ==== Sys2Proof/Machine/ByteSerial.lean ====
section
/-! DEFINITION. The per-byte automaton (spec/44_byte_serial_fsm.md R160 to R168): its six transitions over the register
triple `(phase, buf, L)`, the automaton's own run, and the transitions as operations on the instance. -/

namespace Sys2Proof.Machine

/-- What a transition does: the next automaton state and what it emits. -/
structure Transition where
  next : Automaton
  packets : List Bytes
  events : List DiagEvent
deriving DecidableEq, Repr

/-- B.HUNT.DELIM (R162): `buf <- [b]; phase <- HEADER`. -/
def huntDelim (a : Automaton) (b : Byte) : Transition := ⟨{ a with phase := .header, buf := [b] }, [], []⟩

/-- B.HUNT.NOISE (R161): `b` is discarded. -/
def huntNoise (a : Automaton) (_b : Byte) : Transition := ⟨a, [], []⟩

/-- B.HEADER.ACC (R163): `buf <- buf ++ [b]`. -/
def headerAcc (a : Automaton) (b : Byte) : Transition := ⟨{ a with buf := a.buf ++ [b] }, [], []⟩

/-- B.HEADER.LAST (R164): the length is judged; on reject the bytes after the spurious delimiter are searched again. -/
def headerLast (cfg : FrameConfig) (a : Automaton) (b : Byte) : Transition :=
  let buf := a.buf ++ [b]
  let v := le (slice buf cfg.lengthOffset (headerNeed cfg))
  if cfg.maxLen < v then
    let rest := buf.drop 1
    match find rest cfg.delimiter with
    | none => ⟨⟨.hunt, [], none⟩, [], [.resync v]⟩
    | some q => ⟨⟨.header, rest.drop q, none⟩, [], [.resync v]⟩
  else if headerNeed cfg = cfg.packetOverhead ∧ v = 0 then ⟨⟨.hunt, [], none⟩, [buf], []⟩
  else ⟨⟨.body, buf, some v⟩, [], []⟩

/-- B.BODY.ACC (R165): `buf <- buf ++ [b]`. -/
def bodyAcc (a : Automaton) (b : Byte) : Transition := ⟨{ a with buf := a.buf ++ [b] }, [], []⟩

/-- B.BODY.LAST (R166): the frame is emitted, back to HUNT. -/
def bodyLast (a : Automaton) (b : Byte) : Transition := ⟨⟨.hunt, [], none⟩, [a.buf ++ [b]], []⟩

/-- The transition of a row. -/
def transition (cfg : FrameConfig) (a : Automaton) (b : Byte) : ByteKind → Transition
  | .huntDelim => huntDelim a b
  | .huntNoise => huntNoise a b
  | .headerAcc => headerAcc a b
  | .headerLast => headerLast cfg a b
  | .bodyAcc => bodyAcc a b
  | .bodyLast => bodyLast a b

/-- The automaton run by itself, on its own registers, over a byte sequence; none where no row applies (R160, R168). -/
def autoRun (cfg : FrameConfig) : Automaton → Bytes → Option Transition
  | a, [] => some ⟨a, [], []⟩
  | a, b :: rest =>
    (byteRow cfg a b).bind fun k =>
      let t := transition cfg a b k
      (autoRun cfg t.next rest).map fun r => ⟨r.next, t.packets ++ r.packets, t.events ++ r.events⟩

/-- The automaton's view of the instance; wherever a BYTE row is selected there is one. DESIGN CHOICE (assumption log 16):
elsewhere its reset state stands in, and no answer depends on it. -/
def State.automaton (s : State) : Automaton := (automatonOf s.cfg s.buf).getD automatonReset

/-- Write a transition back. The input operation is PUSH (R160), so the packets are the result. -/
def State.afterTransition (s : State) (t : Transition) : State := s.deliver ⟨t.next.buf, t.packets, t.events⟩

/-- B.HUNT.DELIM (R162). -/
def execBHuntDelim (b : Byte) (s : State) : Ans :=
  ifSelected (.bHuntDelim b) s (s.afterTransition (huntDelim s.automaton b))

/-- B.HUNT.NOISE (R161). -/
def execBHuntNoise (b : Byte) (s : State) : Ans :=
  ifSelected (.bHuntNoise b) s (s.afterTransition (huntNoise s.automaton b))

/-- B.HEADER.ACC (R163). -/
def execBHeaderAcc (b : Byte) (s : State) : Ans :=
  ifSelected (.bHeaderAcc b) s (s.afterTransition (headerAcc s.automaton b))

/-- B.HEADER.LAST (R164). -/
def execBHeaderLast (b : Byte) (s : State) : Ans :=
  ifSelected (.bHeaderLast b) s (s.afterTransition (headerLast s.cfg s.automaton b))

/-- B.BODY.ACC (R165). -/
def execBBodyAcc (b : Byte) (s : State) : Ans :=
  ifSelected (.bBodyAcc b) s (s.afterTransition (bodyAcc s.automaton b))

/-- B.BODY.LAST (R166). -/
def execBBodyLast (b : Byte) (s : State) : Ans :=
  ifSelected (.bBodyLast b) s (s.afterTransition (bodyLast s.automaton b))

end Sys2Proof.Machine
end

