-- ==== Sys2Proof/Machine/Configuration.lean ====
section
/-! DEFINITION. CONFIGURE (spec/40_configuration.md R100 to R104). -/

namespace Sys2Proof.Machine

/-- CONFIGURE (R100): defaults, then Validate (R101), then Admitted (R102). A ConfigError changes nothing (R187); a
configuration that is valid and not admitted is refused. -/
def execConfigure (opts : Options) (s : State) : Ans :=
  match validate (fillDefaults opts) with
  | some c => .next (s.takeCondition (.configError c))
  | none => if admitted (fillDefaults opts) then .next (s.constructed (fillDefaults opts)) else .refused .notAdmitted

end Sys2Proof.Machine
end

