-- ==== Sys2Proof/Machine/Encoder.lean ====
section
/-! DEFINITION. The companion encoder, ENCODE (spec/43_encoder.md R150 to R156). -/

namespace Sys2Proof.Machine

/-- Write bytes into a buffer from a position on, one after the other (R51, R151). -/
def writeAt (f : Bytes) (pos : Nat) : Bytes → Bytes
  | [] => f
  | b :: rest => writeAt (f.set pos b) (pos + 1) rest

/-- The frame of R151, its writes in doc00's order: zeros, the delimiter, the length, the payload (D14). Asked for only
where the checks of R152 pass; what it gives elsewhere is assumption log 16. -/
def encodeFrame (cfg : FrameConfig) (payload : Bytes) : Bytes :=
  let zeros : Bytes := List.replicate (payload.length + cfg.packetOverhead) 0
  let withDelim := zeros.set 0 cfg.delimiter
  let withLen := writeAt withDelim cfg.lengthOffset (leBytes cfg.lengthBytes payload.length)
  writeAt withLen cfg.packetOverhead payload

/-- The checks of R152, in its order; no cause is OK. -/
def encodeCheck (cfg : FrameConfig) (payload : Bytes) : Option EncodeCause :=
  if lrep cfg < payload.length then some .lengthUnrepresentable
  else if cfg.maxLen < payload.length then some .lengthExceedsMaxLen
  else none

/-- ENCODE (R150): the frame, or EncodeRangeError with nothing changed (R153). -/
def execEncode (payload : Bytes) (s : State) : Ans :=
  onInstance s
    (match encodeCheck s.cfg payload with
    | some c => s.takeCondition (.encodeRangeError c)
    | none => s.returning (.frame (encodeFrame s.cfg payload)))

end Sys2Proof.Machine
end

