-- ==== Sys2Proof/Machine/Headers.lean ====
section
/-! DEFINITION. The HDR rows: the arrival on IN of the bytes of a header (spec/30_encoding.md R70 to R79; assumption log
6). The decoder applies its own configuration to the bytes it gets (70_reset_and_hazards.md R210). -/

namespace Sys2Proof.Machine

/-- HDR.GENERIC (R71). -/
def execHdrGeneric (delim : Byte) (padBefore len padAfter : Bytes) (s : State) : Ans :=
  onInstance s (s.accept (genericHeader delim padBefore len padAfter))

/-- HDR.DEFAULT (R73). -/
def execHdrDefault (len : Byte) (s : State) : Ans := onInstance s (s.accept (defaultHeader len))

/-- HDR.SCENARIO (R74). -/
def execHdrScenario (len : BitVec 16) (s : State) : Ans := onInstance s (s.accept (scenarioHeader len))

/-- HDR.PADDED (R71, R76). -/
def execHdrPadded (pad1 len pad2 : Byte) (s : State) : Ans := onInstance s (s.accept (paddedHeader pad1 len pad2))

end Sys2Proof.Machine
end

