-- ==== Sys2Proof/Machine/HostOps.lean ====
section
/-! DEFINITION. The decoder host operations RESET, END, PUSH, FEED (spec/41_decoder_host_ops.md R111 to R117). -/

namespace Sys2Proof.Machine

/-- RESET (R111). -/
def execReset (s : State) : Ans := onInstance s s.cleared

/-- END (R112): `END() = RESET()`; an incomplete trailing frame is dropped. -/
def execEndStream (s : State) : Ans := onInstance s s.cleared

/-- PUSH (R113). -/
def execPush (b : Byte) (s : State) : Ans := onInstance s (s.accept [b])

/-- FEED (R114). -/
def execFeed (chunk : Bytes) (s : State) : Ans := onInstance s (s.accept chunk)

end Sys2Proof.Machine
end

