-- ==== Sys2Proof/Machine/Steps.lean ====
section
/-! DEFINITION. EXTRACT and the extraction steps as operations of their own (spec/42_decoder_extraction.md R120 to R127).
A step has its effect in the states where it is selected. -/

namespace Sys2Proof.Machine

/-- EXTRACT (R120): writes `buf`; the packets and the events go to the caller (assumption log 8). -/
def execExtract (s : State) : Ans :=
  let r := extract s.cfg s.buf
  onInstance s ((s.withBuf r.buf).returning (.extracted r.packets r.events))

/-- X.SCAN (R121): `Discard(n)`. -/
def execXScan (s : State) : Ans := ifSelected .xScan s (s.withBuf (discardFront s.buf s.buf.length))

/-- X.ALIGN (R122): `Discard(p)`. -/
def execXAlign (p : Nat) (s : State) : Ans := ifSelected (.xAlign p) s (s.withBuf (discardFront s.buf p))

/-- X.HWAIT (R123): nothing is written. -/
def execXHwait (s : State) : Ans := ifSelected .xHwait s s

/-- X.LEN (R124): nothing is written by itself. -/
def execXLen (l : Nat) (s : State) : Ans := ifSelected (.xLen l) s s

/-- X.RESYNC (R125): the ResyncEvent. -/
def execXResync (l : Nat) (s : State) : Ans := ifSelected (.xResync l) s (s.takeCondition (.resyncEvent l))

/-- X.BWAIT (R126): nothing is written. -/
def execXBwait (s : State) : Ans := ifSelected .xBwait s s

/-- X.EMIT (R127): the frame to OUT, then `Discard(packetOverhead + L)`. -/
def execXEmit (f : Bytes) (s : State) : Ans :=
  ifSelected (.xEmit f) s ((s.emitOut f).withBuf (discardFront s.buf f.length))

end Sys2Proof.Machine
end

