-- ==== Sys2Proof/Machine/Dispatch.lean ====
section
/-! DEFINITION. The meaning of every operation: one arm per row of spec/opcode_table.json. -/

namespace Sys2Proof.Machine

def exec (i : Instr) (s : State) : Host.Outcome State Fault Refusal :=
  match i with
  | .hdrGeneric d pre len post => Sys2Proof.Machine.execHdrGeneric d pre len post s
  | .hdrDefault len => Sys2Proof.Machine.execHdrDefault len s
  | .hdrScenario len => Sys2Proof.Machine.execHdrScenario len s
  | .hdrPadded p len q => Sys2Proof.Machine.execHdrPadded p len q s
  | .configure opts => Sys2Proof.Machine.execConfigure opts s
  | .reset => Sys2Proof.Machine.execReset s
  | .endStream => Sys2Proof.Machine.execEndStream s
  | .push b => Sys2Proof.Machine.execPush b s
  | .feed chunk => Sys2Proof.Machine.execFeed chunk s
  | .encode payload => Sys2Proof.Machine.execEncode payload s
  | .extract => Sys2Proof.Machine.execExtract s
  | .xScan => Sys2Proof.Machine.execXScan s
  | .xAlign p => Sys2Proof.Machine.execXAlign p s
  | .xHwait => Sys2Proof.Machine.execXHwait s
  | .xLen l => Sys2Proof.Machine.execXLen l s
  | .xResync l => Sys2Proof.Machine.execXResync l s
  | .xBwait => Sys2Proof.Machine.execXBwait s
  | .xEmit f => Sys2Proof.Machine.execXEmit f s
  | .bHuntDelim b => Sys2Proof.Machine.execBHuntDelim b s
  | .bHuntNoise b => Sys2Proof.Machine.execBHuntNoise b s
  | .bHeaderAcc b => Sys2Proof.Machine.execBHeaderAcc b s
  | .bHeaderLast b => Sys2Proof.Machine.execBHeaderLast b s
  | .bBodyAcc b => Sys2Proof.Machine.execBBodyAcc b s
  | .bBodyLast b => Sys2Proof.Machine.execBBodyLast b s

end Sys2Proof.Machine
end

