-- ==== Sys2Proof/Machine/Step.lean ====
section
/-! DEFINITION. One step of the machine: the driver's next event is taken, decoded and carried out whole. -/

namespace Sys2Proof.Machine

/-- One step. With nothing pending the block holds its state (60_exceptions.md R192). -/
def step (s : State) : Host.Outcome State Fault Refusal :=
  match fetch s with
  | none => .next s
  | some (e, s') =>
    match decode s'.cfg s'.buf e with
    | .ok i => exec i s'
    | .error why => .refused (.undecodable why)

/-- The state in which the next step fetches the operation of a table word: the word's event first in the queue, under
the configuration its row belongs to (R82), and for a byte in phase HUNT, so on an empty accumulator. -/
def State.withFetchWord (s : State) (nbits w : Nat) : State :=
  { s with
    cfg := tableConfig nbits
    buf := if nbits = 8 then [] else s.buf
    pending := tableEvent nbits w :: s.pending }

end Sys2Proof.Machine
end

