-- ==== Sys2Proof/Safety.lean ====
section
/-! DEFINITION. The good states and the runs that claims speak about (spec/10_state.md R22, R30, R31, R33). -/

namespace Sys2Proof.Machine

/-- The instance is quiescent under an admitted configuration (R22, R102). -/
abbrev State.Quiescent (s : State) : Prop := admitted s.cfg = true ∧ normalForm s.cfg s.buf = true

/-- A diagnostic event that this configuration can cause: `RESYNC(L)` with `maxLen < L <= LREP` (R31). -/
def legalEvent (cfg : FrameConfig) : DiagEvent → Bool
  | .resync l => decide (cfg.maxLen < l) && decide (l ≤ lrep cfg)

/-- The invariant of an instance: quiescent, every packet ever emitted a whole acceptable frame, every event legal. -/
abbrev State.Inv (s : State) : Prop :=
  s.Quiescent ∧ s.out.all (isFrame s.cfg) = true ∧ s.diag.all (legalEvent s.cfg) = true

/-- The weighted sum of R72 and R124, as the spec writes it: byte `i` of the length field has weight `256^i`. -/
def lengthFieldSum (cfg : FrameConfig) (buf : Bytes) : Nat :=
  ∑ i ∈ Finset.range cfg.lengthBytes, (buf.getD (cfg.lengthOffset + i) 0).toNat * 256 ^ i

/-- Discarded runs and packets in stream order, each packet behind the run that stands before it (R132, R133). -/
def interleave : List Bytes → List Bytes → Bytes
  | gap :: gaps, packet :: packets => gap ++ packet ++ interleave gaps packets
  | _, _ => []

/-- The six transitions an arriving byte could take (R161 to R166). -/
def byteRowsOf (b : Byte) : List Instr :=
  [.bHuntDelim b, .bHuntNoise b, .bHeaderAcc b, .bHeaderLast b, .bBodyAcc b, .bBodyLast b]

/-- Carry out a list of operations one after the other, stopping at the first stop. -/
def execAll : List Instr → State → Ans
  | [], s => .next s
  | i :: rest, s =>
    match exec i s with
    | .next t => execAll rest t
    | .fault r => .fault r
    | .refused r => .refused r

end Sys2Proof.Machine
end

