-- ==== Sys2Proof/Certificates/Slice0/Obligations.lean ====
section
/-! DEFINITION. The statements for the provers. In all of them `result` carries the value that the rule returns (the
carrier is the model's own, assumption log 3) and `pending` is the model's own queue (assumption log 1). -/

open Sys2Proof Sys2Proof.Machine

/-! ### Configuration (40_configuration.md) -/

/-- R100, success: defaults per field, then a new decoder at its reset values, whatever state came before (that the new
decoder takes the place of the old one in the state is the model's choice, assumption log 5). -/
def Obligations.ConfigureCreatesFreshInstance : Prop :=
  ∀ (o : Options) (s : State) (c : FrameConfig),
    c = ⟨o.delimiter.getD 0xAA, o.packetOverhead.getD 2, o.lengthBytes.getD 1, o.lengthOffset.getD 1,
      o.maxLen.getD 255⟩ →
    1 ≤ c.lengthBytes → c.lengthBytes ≤ 4 → 1 ≤ c.lengthOffset → c.lengthOffset + c.lengthBytes ≤ c.packetOverhead →
    exec (.configure o) s =
      .next { cfg := c, buf := [], out := [], diag := [], result := .created, pending := s.pending }

/-- R100, R101: the two checks and their order; nothing else is a ConfigError. R187: a ConfigError changes nothing; that
the instance already in the state is part of what stays is the model's choice (assumption log 5). -/
def Obligations.ConfigureReportsFirstFailedCheck : Prop :=
  ∀ (o : Options) (s : State) (c : FrameConfig),
    c = ⟨o.delimiter.getD 0xAA, o.packetOverhead.getD 2, o.lengthBytes.getD 1, o.lengthOffset.getD 1,
      o.maxLen.getD 255⟩ →
    (c.lengthBytes < 1 ∨ 4 < c.lengthBytes →
      exec (.configure o) s = .next { s with result := .raised (.configError .lengthBytesRange) }) ∧
    (1 ≤ c.lengthBytes → c.lengthBytes ≤ 4 → c.packetOverhead < c.lengthOffset + c.lengthBytes →
      exec (.configure o) s = .next { s with result := .raised (.configError .fieldExceedsHeader) }) ∧
    (1 ≤ c.lengthBytes → c.lengthBytes ≤ 4 → c.lengthOffset + c.lengthBytes ≤ c.packetOverhead →
      ∀ t cause, exec (.configure o) s = .next t → t.result ≠ .raised (.configError cause))

/-- R102: which configurations are admitted; `lengthOffset = 0` is refused and is no ConfigError; an operation on an
instance that is not admitted has no step. -/
def Obligations.UnadmittedConfigurationHasNoStep : Prop :=
  (∀ c : FrameConfig, admitted c = true ↔
    1 ≤ c.lengthBytes ∧ c.lengthBytes ≤ 4 ∧ c.lengthOffset + c.lengthBytes ≤ c.packetOverhead ∧ 1 ≤ c.lengthOffset) ∧
  (∀ c : FrameConfig, admitted c = true → 2 ≤ c.lengthOffset + c.lengthBytes ∧ 2 ≤ c.packetOverhead) ∧
  (∀ (o : Options) (s : State), o.lengthOffset = some 0 → 1 ≤ o.lengthBytes.getD 1 → o.lengthBytes.getD 1 ≤ 4 →
    o.lengthBytes.getD 1 ≤ o.packetOverhead.getD 2 → exec (.configure o) s = .refused .notAdmitted) ∧
  (∀ (i : Instr) (s : State), (∀ o, i ≠ .configure o) → admitted s.cfg = false → exec i s = .refused .notAdmitted)

/-- R104: no operation writes `cfg`; a CONFIGURE that does not construct leaves it too (that one that does
puts the new instance in the old one's place is the model's choice, assumption log 5). -/
def Obligations.ConfigurationNeverChanges : Prop :=
  ∀ (i : Instr) (s t : State), exec i s = .next t → t.result ≠ .created ∨ (∀ o, i ≠ .configure o) → t.cfg = s.cfg

/-! ### Host operations (41_decoder_host_ops.md) -/

/-- R111, R112: RESET and END empty the accumulator, emit nothing and leave the phase HUNT; END is RESET. -/
def Obligations.ResetAndEndEmptyAccumulator : Prop :=
  ∀ s : State, admitted s.cfg = true →
    exec .reset s = .next { s with buf := [], result := .packets [] } ∧
    exec .endStream s = .next { s with buf := [], result := .packets [] } ∧ phaseOf s.cfg [] = some .hunt

/-- R113: one byte appended, EXTRACT, delivery; PUSH is FEED with a chunk of length one. -/
def Obligations.PushRunsExtraction : Prop :=
  ∀ (b : Byte) (s : State), admitted s.cfg = true →
    exec (.push b) s =
      .next { s with
        buf := (extract s.cfg (s.buf ++ [b])).buf
        out := s.out ++ (extract s.cfg (s.buf ++ [b])).packets
        diag := s.diag ++ (extract s.cfg (s.buf ++ [b])).events
        result := .packets (extract s.cfg (s.buf ++ [b])).packets } ∧
    exec (.push b) s = exec (.feed [b]) s ∧ memWrite s.buf s.buf.length 1 b.toNat = some (s.buf ++ [b])

/-- R114: the chunk appended, EXTRACT, packets to `out`, events to `diag`, the packets returned. -/
def Obligations.FeedRunsExtraction : Prop :=
  ∀ (chunk : Bytes) (s : State), admitted s.cfg = true →
    exec (.feed chunk) s =
      .next { s with
        buf := (extract s.cfg (s.buf ++ chunk)).buf
        out := s.out ++ (extract s.cfg (s.buf ++ chunk)).packets
        diag := s.diag ++ (extract s.cfg (s.buf ++ chunk)).events
        result := .packets (extract s.cfg (s.buf ++ chunk)).packets }

/-- R115: FEED of the empty chunk on a quiescent instance changes nothing and returns no packet. -/
def Obligations.EmptyFeedIsNoOperation : Prop :=
  ∀ s : State, s.Quiescent → exec (.feed []) s = .next { s with result := .packets [] }

/-- R116: the packets returned are the packets appended to `out`, each a whole frame of length `packetOverhead + L`. -/
def Obligations.DeliveryIsExactAndWhole : Prop :=
  ∀ (i : Instr) (s : State), admitted s.cfg = true → (∃ b, i = .push b) ∨ (∃ chunk, i = .feed chunk) →
    ∃ t ps, exec i s = .next t ∧ t.result = .packets ps ∧ t.out = s.out ++ ps ∧
      ∀ f ∈ ps, f.head? = some s.cfg.delimiter ∧ f.length = s.cfg.packetOverhead + lengthFieldSum s.cfg f ∧
        (f.drop s.cfg.packetOverhead).length = lengthFieldSum s.cfg f

/-! ### EXTRACT and the extraction steps (42_decoder_extraction.md) -/

/-- R120, R142: the loop, one equation per branch of its decision tree. -/
def Obligations.ExtractFollowsDecisionTree : Prop :=
  ∀ (c : FrameConfig) (buf : Bytes), admitted c = true →
    (buf = [] → extract c buf = ⟨[], [], []⟩) ∧
    (buf ≠ [] → c.delimiter ∉ buf → extract c buf = extract c []) ∧
    (∀ p, 0 < p → buf[p]? = some c.delimiter → c.delimiter ∉ buf.take p → extract c buf = extract c (buf.drop p)) ∧
    (buf.head? = some c.delimiter →
      (buf.length < headerNeed c → extract c buf = ⟨buf, [], []⟩) ∧
      (headerNeed c ≤ buf.length →
        (c.maxLen < lengthFieldSum c buf →
          extract c buf = ⟨(extract c (buf.drop 1)).buf, (extract c (buf.drop 1)).packets,
            .resync (lengthFieldSum c buf) :: (extract c (buf.drop 1)).events⟩) ∧
        (lengthFieldSum c buf ≤ c.maxLen → buf.length < c.packetOverhead + lengthFieldSum c buf →
          extract c buf = ⟨buf, [], []⟩) ∧
        (lengthFieldSum c buf ≤ c.maxLen → c.packetOverhead + lengthFieldSum c buf ≤ buf.length →
          extract c buf =
            ⟨(extract c (buf.drop (c.packetOverhead + lengthFieldSum c buf))).buf,
              buf.take (c.packetOverhead + lengthFieldSum c buf) ::
                (extract c (buf.drop (c.packetOverhead + lengthFieldSum c buf))).packets,
              (extract c (buf.drop (c.packetOverhead + lengthFieldSum c buf))).events⟩)))

/-- R120: EXTRACT as an operation of its own writes `buf` and returns packets and events; that nothing is appended to
`out` and `diag` where no caller does it is the model's reading (assumption log 8). -/
def Obligations.ExtractWritesBufferAndReturns : Prop :=
  ∀ s : State, admitted s.cfg = true →
    exec .extract s =
      .next { s with
        buf := (extract s.cfg s.buf).buf
        result := .extracted (extract s.cfg s.buf).packets (extract s.cfg s.buf).events }

/-- R121: no delimiter anywhere, everything is discarded, nothing is reported. -/
def Obligations.ScanDiscardsAll : Prop :=
  ∀ s : State, admitted s.cfg = true → s.buf ≠ [] → s.cfg.delimiter ∉ s.buf →
    exec .xScan s = .next { s with buf := [] }

/-- R122: the bytes before the first delimiter are discarded, which then stands at the front. -/
def Obligations.AlignDiscardsNoise : Prop :=
  ∀ (s : State) (p : Nat), admitted s.cfg = true → 0 < p → s.buf[p]? = some s.cfg.delimiter →
    s.cfg.delimiter ∉ s.buf.take p →
    exec (.xAlign p) s = .next { s with buf := s.buf.drop p } ∧ (s.buf.drop p).head? = some s.cfg.delimiter

/-- R123: while the length field is incomplete nothing is written and EXTRACT exits; phase HEADER, `need = H - n`. -/
def Obligations.HeaderWaitWritesNothing : Prop :=
  ∀ s : State, admitted s.cfg = true → s.buf.head? = some s.cfg.delimiter → s.buf.length < headerNeed s.cfg →
    exec .xHwait s = .next s ∧ extract s.cfg s.buf = ⟨s.buf, [], []⟩ ∧ phaseOf s.cfg s.buf = some .header ∧
      needOf s.cfg s.buf = some (headerNeed s.cfg - s.buf.length)

/-- R124, R72: the length is the weighted sum of the field's bytes, at most `LREP`; nothing is written. -/
def Obligations.LengthReadIsWeightedSum : Prop :=
  ∀ s : State, admitted s.cfg = true → s.buf.head? = some s.cfg.delimiter → headerNeed s.cfg ≤ s.buf.length →
    exec (.xLen (lengthFieldSum s.cfg s.buf)) s = .next s ∧
    memRead s.buf s.cfg.lengthOffset s.cfg.lengthBytes = some (lengthFieldSum s.cfg s.buf) ∧
    lengthFieldSum s.cfg s.buf ≤ 2 ^ (8 * s.cfg.lengthBytes) - 1

/-- R125: exactly the spurious delimiter byte is dropped, the rejected length goes to `diag`. -/
def Obligations.ResyncDropsOneByte : Prop :=
  ∀ s : State, admitted s.cfg = true → s.buf.head? = some s.cfg.delimiter → headerNeed s.cfg ≤ s.buf.length →
    s.cfg.maxLen < lengthFieldSum s.cfg s.buf →
    exec (.xResync (lengthFieldSum s.cfg s.buf)) s =
      .next { s with buf := s.buf.drop 1, diag := s.diag ++ [.resync (lengthFieldSum s.cfg s.buf)] }

/-- R126: while the frame is incomplete nothing is written and EXTRACT exits; phase BODY, `need = packetOverhead + L - n`. -/
def Obligations.BodyWaitWritesNothing : Prop :=
  ∀ s : State, admitted s.cfg = true → s.buf.head? = some s.cfg.delimiter → headerNeed s.cfg ≤ s.buf.length →
    lengthFieldSum s.cfg s.buf ≤ s.cfg.maxLen →
    s.buf.length < s.cfg.packetOverhead + lengthFieldSum s.cfg s.buf →
    exec .xBwait s = .next s ∧ extract s.cfg s.buf = ⟨s.buf, [], []⟩ ∧ phaseOf s.cfg s.buf = some .body ∧
      needOf s.cfg s.buf = some (s.cfg.packetOverhead + lengthFieldSum s.cfg s.buf - s.buf.length)

/-- R127: the whole frame goes to `out`, header included, and leaves the accumulator; the bytes behind it stay. -/
def Obligations.EmitDeliversWholeFrame : Prop :=
  ∀ (s : State) (k : Nat), admitted s.cfg = true → s.buf.head? = some s.cfg.delimiter →
    headerNeed s.cfg ≤ s.buf.length → lengthFieldSum s.cfg s.buf ≤ s.cfg.maxLen →
    k = s.cfg.packetOverhead + lengthFieldSum s.cfg s.buf → k ≤ s.buf.length →
    exec (.xEmit (s.buf.take k)) s = .next { s with buf := s.buf.drop k, out := s.out ++ [s.buf.take k] }

/-- R81, R161 to R166: a STEP or BYTE operation acts only where it is selected; elsewhere the spec gives it no effect, and
that it is then refused by name is the model's choice (assumption log 9). -/
def Obligations.OperationsStopWhereNotSelected : Prop :=
  ∀ s : State, admitted s.cfg = true →
    (¬ (s.buf ≠ [] ∧ s.cfg.delimiter ∉ s.buf) → exec .xScan s = .refused .notSelected) ∧
    (∀ p, ¬ (0 < p ∧ s.buf[p]? = some s.cfg.delimiter ∧ s.cfg.delimiter ∉ s.buf.take p) →
      exec (.xAlign p) s = .refused .notSelected) ∧
    (¬ (s.buf.head? = some s.cfg.delimiter ∧ s.buf.length < headerNeed s.cfg) →
      exec .xHwait s = .refused .notSelected) ∧
    (∀ l, ¬ (s.buf.head? = some s.cfg.delimiter ∧ headerNeed s.cfg ≤ s.buf.length ∧ l = lengthFieldSum s.cfg s.buf) →
      exec (.xLen l) s = .refused .notSelected) ∧
    (∀ l, ¬ (s.buf.head? = some s.cfg.delimiter ∧ headerNeed s.cfg ≤ s.buf.length ∧ l = lengthFieldSum s.cfg s.buf ∧
        s.cfg.maxLen < l) →
      exec (.xResync l) s = .refused .notSelected) ∧
    (¬ (s.buf.head? = some s.cfg.delimiter ∧ headerNeed s.cfg ≤ s.buf.length ∧
        lengthFieldSum s.cfg s.buf ≤ s.cfg.maxLen ∧
        s.buf.length < s.cfg.packetOverhead + lengthFieldSum s.cfg s.buf) →
      exec .xBwait s = .refused .notSelected) ∧
    (∀ f, ¬ (s.buf.head? = some s.cfg.delimiter ∧ headerNeed s.cfg ≤ s.buf.length ∧
        lengthFieldSum s.cfg s.buf ≤ s.cfg.maxLen ∧
        s.cfg.packetOverhead + lengthFieldSum s.cfg s.buf ≤ s.buf.length ∧
        f = s.buf.take (s.cfg.packetOverhead + lengthFieldSum s.cfg s.buf)) →
      exec (.xEmit f) s = .refused .notSelected) ∧
    (∀ b, ¬ (s.buf = [] ∧ b = s.cfg.delimiter) → exec (.bHuntDelim b) s = .refused .notSelected) ∧
    (∀ b, ¬ (s.buf = [] ∧ b ≠ s.cfg.delimiter) → exec (.bHuntNoise b) s = .refused .notSelected) ∧
    (∀ b, ¬ (phaseOf s.cfg s.buf = some .header ∧ s.buf.length + 1 < headerNeed s.cfg) →
      exec (.bHeaderAcc b) s = .refused .notSelected) ∧
    (∀ b, ¬ (phaseOf s.cfg s.buf = some .header ∧ s.buf.length + 1 = headerNeed s.cfg) →
      exec (.bHeaderLast b) s = .refused .notSelected) ∧
    (∀ b, ¬ (∃ l, latchedLength s.cfg s.buf = some l ∧ s.buf.length + 1 < s.cfg.packetOverhead + l) →
      exec (.bBodyAcc b) s = .refused .notSelected) ∧
    (∀ b, ¬ (∃ l, latchedLength s.cfg s.buf = some l ∧ s.buf.length + 1 = s.cfg.packetOverhead + l) →
      exec (.bBodyLast b) s = .refused .notSelected)

/-- R120 against R121 to R127: EXTRACT is a run of the extraction steps, one after the other, each where it is selected;
the packets it returns are what the X.EMITs put on OUT and the events what the X.RESYNCs put on DIAG. -/
def Obligations.ExtractIsARunOfSteps : Prop :=
  ∀ s : State, admitted s.cfg = true →
    ∃ steps : List Instr, (∀ i ∈ steps, i.format = .step ∧ i ≠ .extract) ∧
      execAll steps s =
        .next { s with
          buf := (extract s.cfg s.buf).buf
          out := s.out ++ (extract s.cfg s.buf).packets
          diag := s.diag ++ (extract s.cfg s.buf).events }

/-- R128: every step that changes the accumulator shortens it, by what the rule says, and where EXTRACT ends no such step
can act. -/
def Obligations.ExtractTerminates : Prop :=
  (∀ s t : State,
    (exec .xScan s = .next t → t.buf.length + s.buf.length ≤ s.buf.length ∧ 1 ≤ s.buf.length) ∧
    (∀ p, exec (.xAlign p) s = .next t → t.buf.length + p = s.buf.length ∧ 1 ≤ p) ∧
    (∀ l, exec (.xResync l) s = .next t → t.buf.length + 1 = s.buf.length) ∧
    (∀ f, exec (.xEmit f) s = .next t → t.buf.length + f.length = s.buf.length ∧ 2 ≤ f.length)) ∧
  (∀ s : State, admitted s.cfg = true → ∀ t u i, exec .extract s = .next t → exec i t = .next u →
    i.format = .step → u.buf = t.buf)

/-- R129: EXTRACT ends in the normal form and does nothing to an accumulator already in it. -/
def Obligations.ExtractReachesNormalForm : Prop :=
  ∀ (c : FrameConfig) (buf : Bytes), admitted c = true →
    normalForm c (extract c buf).buf = true ∧ (normalForm c buf = true → extract c buf = ⟨buf, [], []⟩)

/-- R131: where the stream is cut does not matter: two FEEDs against one, any chunking against one, PUSHes against one. -/
def Obligations.ChunkBoundariesAreInvisible : Prop :=
  ∀ s : State, s.Quiescent →
    (∀ a b : Bytes, ∃ t u v, exec (.feed a) s = .next t ∧ exec (.feed b) t = .next u ∧
      exec (.feed (a ++ b)) s = .next v ∧ u.buf = v.buf ∧ u.out = v.out ∧ u.diag = v.diag) ∧
    (∀ chunks : List Bytes, ∃ u v, execAll (chunks.map .feed) s = .next u ∧ exec (.feed chunks.flatten) s = .next v ∧
      u.buf = v.buf ∧ u.out = v.out ∧ u.diag = v.diag) ∧
    (∀ chunk : Bytes, ∃ u v, execAll (chunk.map .push) s = .next u ∧ exec (.feed chunk) s = .next v ∧
      u.buf = v.buf ∧ u.out = v.out ∧ u.diag = v.diag)

/-- R132, R133: every byte that a FEED finds or brings is in exactly one packet, or discarded, or still held; packets are
disjoint contiguous runs in stream order. RESET and END discard what is held. -/
def Obligations.EveryByteHasOneFate : Prop :=
  ∀ s : State, admitted s.cfg = true →
    (∀ chunk : Bytes, ∃ t ps gaps lastGap, exec (.feed chunk) s = .next t ∧ t.out = s.out ++ ps ∧
      gaps.length = ps.length ∧ s.buf ++ chunk = interleave gaps ps ++ lastGap ++ t.buf) ∧
    (∃ t, exec .reset s = .next t ∧ t.buf = [] ∧ t.out = s.out) ∧
    (∃ t, exec .endStream s = .next t ∧ t.buf = [] ∧ t.out = s.out)

/-- R134: one PUSH emits at most one packet and at most one RESYNC, never both, case by case. -/
def Obligations.PushEmitsAtMostOneThing : Prop :=
  ∀ (s : State) (b : Byte), s.Quiescent →
    ∃ t ps es, exec (.push b) s = .next t ∧ t.out = s.out ++ ps ∧ t.diag = s.diag ++ es ∧
      ps.length + es.length ≤ 1 ∧
      (s.buf.length + 1 < headerNeed s.cfg → ps = [] ∧ es = []) ∧
      (s.buf.length + 1 = headerNeed s.cfg → es ≠ [] → t.buf.length < headerNeed s.cfg) ∧
      (s.buf.length + 1 = headerNeed s.cfg → ps ≠ [] →
        headerNeed s.cfg = s.cfg.packetOverhead ∧ lengthFieldSum s.cfg (s.buf ++ [b]) = 0) ∧
      (headerNeed s.cfg ≤ s.buf.length → es = [] ∧ (ps ≠ [] → t.buf = []) ∧
        (ps = [] → t.buf = s.buf ++ [b]))

/-- R135: whatever ENCODE makes of a payload that fits, the decoder emits it once, in one chunk or in any chunking. -/
def Obligations.RoundTrip : Prop :=
  ∀ (s : State) (pl : Bytes), admitted s.cfg = true → s.buf = [] → pl.length ≤ s.cfg.maxLen →
    pl.length ≤ 2 ^ (8 * s.cfg.lengthBytes) - 1 →
    ∃ f, exec (.encode pl) s = .next { s with result := .frame f } ∧ f.drop s.cfg.packetOverhead = pl ∧
      exec (.feed f) s = .next { s with out := s.out ++ [f], result := .packets [f] } ∧
      ∀ chunks : List Bytes, chunks.flatten = f →
        ∃ t, execAll (chunks.map .feed) s = .next t ∧ t.out = s.out ++ [f] ∧ t.diag = s.diag ∧ t.buf = []

/-- R136: N encoded frames concatenated yield exactly N packets, in order, under any chunking. -/
def Obligations.ConcatenatedFrames : Prop :=
  ∀ (s : State) (pls : List Bytes), admitted s.cfg = true → s.buf = [] →
    (∀ pl ∈ pls, pl.length ≤ s.cfg.maxLen ∧ pl.length ≤ 2 ^ (8 * s.cfg.lengthBytes) - 1) →
    ∃ frames : List Bytes,
      List.Forall₂ (fun pl f => exec (.encode pl) s = .next { s with result := .frame f }) pls frames ∧
      exec (.feed frames.flatten) s = .next { s with out := s.out ++ frames, result := .packets frames } ∧
      ∀ chunks : List Bytes, chunks.flatten = frames.flatten →
        ∃ t, execAll (chunks.map .feed) s = .next t ∧ t.out = s.out ++ frames ∧ t.diag = s.diag ∧ t.buf = []

/-- R137: garbage, a spurious header, a valid frame, under the rule's two preconditions. -/
def Obligations.ResynchronizationFindsValidFrame : Prop :=
  ∀ (s : State) (g sp v : Bytes), admitted s.cfg = true → s.buf = [] → s.cfg.delimiter ∉ g →
    sp.length = headerNeed s.cfg → sp.head? = some s.cfg.delimiter → s.cfg.delimiter ∉ sp.tail →
    s.cfg.maxLen < lengthFieldSum s.cfg sp →
    v.head? = some s.cfg.delimiter → headerNeed s.cfg ≤ v.length → lengthFieldSum s.cfg v ≤ s.cfg.maxLen →
    v.length = s.cfg.packetOverhead + lengthFieldSum s.cfg v →
    exec (.feed (g ++ sp ++ v)) s =
      .next { s with out := s.out ++ [v], diag := s.diag ++ [.resync (lengthFieldSum s.cfg sp)],
                     result := .packets [v] }

/-- R138: a partial header emits nothing and is kept; when the rest of the frame arrives the frame is emitted. -/
def Obligations.PartialHeaderIsCompletedLater : Prop :=
  ∀ (s : State) (h : Bytes), admitted s.cfg = true → s.buf = [] → h.head? = some s.cfg.delimiter →
    h.length < headerNeed s.cfg →
    exec (.feed h) s = .next { s with buf := h, result := .packets [] } ∧
    ∀ rest : Bytes, headerNeed s.cfg ≤ (h ++ rest).length → lengthFieldSum s.cfg (h ++ rest) ≤ s.cfg.maxLen →
      (h ++ rest).length = s.cfg.packetOverhead + lengthFieldSum s.cfg (h ++ rest) →
      execAll [.feed h, .feed rest] s =
        .next { s with out := s.out ++ [h ++ rest], result := .packets [h ++ rest] }

/-- R139: the document's scenario, from CONFIGURE on. -/
def Obligations.ConcreteScenario : Prop :=
  ∃ t, execAll
      [.configure { delimiter := some 0x69, packetOverhead := some 3, lengthBytes := some 2, lengthOffset := some 1 },
        .feed [0x69, 0x04, 0x00, 0x74, 0x65, 0x73, 0x74]] State.reset = .next t ∧
    t.out = [[0x69, 0x04, 0x00, 0x74, 0x65, 0x73, 0x74]] ∧
    t.out.map (fun f => f.drop t.cfg.packetOverhead) = [[0x74, 0x65, 0x73, 0x74]] ∧ t.buf = []

/-- R28: where `maxLen >= LREP` nothing is ever spurious; where `maxLen = 0` only bare headers are frames; `LMAX` does as
well as `maxLen`. -/
def Obligations.EffectiveMaximumLength : Prop :=
  ∀ (c : FrameConfig) (buf : Bytes), admitted c = true →
    (2 ^ (8 * c.lengthBytes) - 1 ≤ c.maxLen → (extract c buf).events = []) ∧
    (c.maxLen = 0 → ∀ f ∈ (extract c buf).packets, f.length = c.packetOverhead) ∧
    extract { c with maxLen := min c.maxLen (2 ^ (8 * c.lengthBytes) - 1) } buf = extract c buf

/-! ### State (10_state.md) -/

/-- R22: the three shapes, and that every operation that starts or feeds a decoder leaves one of them. -/
def Obligations.QuiescentAccumulatorHasOneOfThreeShapes : Prop :=
  (∀ (c : FrameConfig) (buf : Bytes), admitted c = true →
    (normalForm c buf = true ↔
      buf = [] ∨
      (1 ≤ buf.length ∧ buf.head? = some c.delimiter ∧ buf.length < headerNeed c) ∨
      (headerNeed c ≤ buf.length ∧ buf.head? = some c.delimiter ∧ lengthFieldSum c buf ≤ c.maxLen ∧
        buf.length < c.packetOverhead + lengthFieldSum c buf))) ∧
  (∀ (i : Instr) (s t : State), exec i s = .next t →
    i = .reset ∨ i = .endStream ∨ (∃ b, i = .push b) ∨ (∃ chunk, i = .feed chunk) ∨
      (∃ o, i = .configure o ∧ ∀ cause, t.result ≠ .raised (.configError cause)) →
    normalForm t.cfg t.buf = true)

/-- R23: the occupancy bounds. -/
def Obligations.OccupancyIsBounded : Prop :=
  ∀ (c : FrameConfig) (buf : Bytes), admitted c = true → normalForm c buf = true →
    buf.length + 1 ≤ c.packetOverhead + min c.maxLen (2 ^ (8 * c.lengthBytes) - 1) ∧
    (phaseOf c buf = some .header → buf.length + 1 ≤ headerNeed c ∧ headerNeed c ≤ c.packetOverhead) ∧
    (∀ b : Byte, (buf ++ [b]).length ≤ cap c)

/-- R26: the derived registers at quiescence. -/
def Obligations.DerivedRegisters : Prop :=
  ∀ (c : FrameConfig) (buf : Bytes), admitted c = true → normalForm c buf = true →
    buf.length ≤ cap c - 1 ∧
    (buf.length = 0 → phaseOf c buf = some .hunt ∧ latchedLength c buf = none ∧ needOf c buf = none) ∧
    (1 ≤ buf.length → buf.length < headerNeed c →
      phaseOf c buf = some .header ∧ latchedLength c buf = none ∧ needOf c buf = some (headerNeed c - buf.length) ∧
      1 ≤ headerNeed c - buf.length) ∧
    (headerNeed c ≤ buf.length →
      phaseOf c buf = some .body ∧ latchedLength c buf = some (lengthFieldSum c buf) ∧
      lengthFieldSum c buf ≤ lmax c ∧ needOf c buf = some (c.packetOverhead + lengthFieldSum c buf - buf.length) ∧
      1 ≤ c.packetOverhead + lengthFieldSum c buf - buf.length)

/-- R30, R31: the traces are append-only; only a construction starts them anew. -/
def Obligations.TracesAreAppendOnly : Prop :=
  ∀ (i : Instr) (s t : State), exec i s = .next t →
    (s.out <+: t.out ∧ s.diag <+: t.diag) ∨ (∃ o, i = .configure o) ∧ t.result = .created ∧ t.out = [] ∧ t.diag = []

/-- R31, R188: nothing in `out` or `buf` ever depends on `diag`. -/
def Obligations.NothingDependsOnDiagnostics : Prop :=
  ∀ (i : Instr) (s : State) (d : List DiagEvent) (t : State), exec i s = .next t →
    ∃ t', exec i { s with diag := d } = .next t' ∧ t'.buf = t.buf ∧ t'.out = t.out ∧ t'.cfg = t.cfg ∧
      t'.result = t.result ∧ t'.pending = t.pending

/-- R13, R63: MemRead is the little-endian weighted sum, defined inside the buffer only; MemWrite appends. That
MemWrite has a value also for a `v` that `k` bytes cannot hold is the model's choice (assumption log 16). -/
def Obligations.MemoryPrimitives : Prop :=
  ∀ (buf : Bytes) (addr k v : Nat),
    (1 ≤ k → k ≤ 4 → addr + k ≤ buf.length →
      memRead buf addr k = some (∑ i ∈ Finset.range k, (buf.getD (addr + i) 0).toNat * 256 ^ i) ∧
      ∑ i ∈ Finset.range k, (buf.getD (addr + i) 0).toNat * 256 ^ i < 2 ^ (8 * k)) ∧
    (buf.length < addr + k → memRead buf addr k = none) ∧
    memWrite buf buf.length k v = some (buf ++ leBytes k v) ∧
    (addr ≠ buf.length → memWrite buf addr k v = none)

/-- R12: `LE` and `LEbytes` are inverse to each other. -/
def Obligations.LittleEndianInverse : Prop :=
  (∀ k v : Nat, v < 2 ^ (8 * k) → le (leBytes k v) = v) ∧ ∀ s : Bytes, leBytes s.length (le s) = s

/-! ### The per-byte automaton (44_byte_serial_fsm.md) -/

/-- R161, R162: in HUNT a noise byte is discarded, the delimiter is kept and starts a candidate. -/
def Obligations.HuntTransitions : Prop :=
  ∀ (s : State) (b : Byte), admitted s.cfg = true → s.buf = [] →
    (b ≠ s.cfg.delimiter → exec (.bHuntNoise b) s = .next { s with result := .packets [] }) ∧
    (b = s.cfg.delimiter →
      exec (.bHuntDelim b) s = .next { s with buf := [b], result := .packets [] } ∧
      phaseOf s.cfg [b] = some .header)

/-- R163: a header byte that does not complete the length field is kept, whatever its value. -/
def Obligations.HeaderByteAccumulates : Prop :=
  ∀ (s : State) (b : Byte), s.Quiescent → phaseOf s.cfg s.buf = some .header → s.buf.length + 1 < headerNeed s.cfg →
    exec (.bHeaderAcc b) s = .next { s with buf := s.buf ++ [b], result := .packets [] }

/-- R164: the four outcomes of the byte that completes the length field. -/
def Obligations.LastHeaderByteJudgesLength : Prop :=
  ∀ (s : State) (b : Byte) (v : Nat), s.Quiescent → phaseOf s.cfg s.buf = some .header →
    s.buf.length + 1 = headerNeed s.cfg → v = lengthFieldSum s.cfg (s.buf ++ [b]) →
    (s.cfg.maxLen < v → s.cfg.delimiter ∉ s.buf.tail ++ [b] →
      exec (.bHeaderLast b) s = .next { s with buf := [], diag := s.diag ++ [.resync v], result := .packets [] }) ∧
    (∀ q, s.cfg.maxLen < v → (s.buf.tail ++ [b])[q]? = some s.cfg.delimiter →
      s.cfg.delimiter ∉ (s.buf.tail ++ [b]).take q →
      exec (.bHeaderLast b) s =
        .next { s with buf := (s.buf.tail ++ [b]).drop q, diag := s.diag ++ [.resync v], result := .packets [] } ∧
      phaseOf s.cfg ((s.buf.tail ++ [b]).drop q) = some .header) ∧
    (v ≤ s.cfg.maxLen → headerNeed s.cfg = s.cfg.packetOverhead → v = 0 →
      exec (.bHeaderLast b) s =
        .next { s with buf := [], out := s.out ++ [s.buf ++ [b]], result := .packets [s.buf ++ [b]] }) ∧
    (v ≤ s.cfg.maxLen → ¬ (headerNeed s.cfg = s.cfg.packetOverhead ∧ v = 0) →
      exec (.bHeaderLast b) s = .next { s with buf := s.buf ++ [b], result := .packets [] } ∧
      phaseOf s.cfg (s.buf ++ [b]) = some .body ∧ latchedLength s.cfg (s.buf ++ [b]) = some v)

/-- R165: a byte that does not complete the frame is kept, whatever its value. -/
def Obligations.BodyByteAccumulates : Prop :=
  ∀ (s : State) (b : Byte) (l : Nat), s.Quiescent → latchedLength s.cfg s.buf = some l →
    s.buf.length + 1 < s.cfg.packetOverhead + l →
    exec (.bBodyAcc b) s = .next { s with buf := s.buf ++ [b], result := .packets [] }

/-- R166: the byte that completes the frame emits it and leaves nothing buffered. -/
def Obligations.LastBodyByteEmitsFrame : Prop :=
  ∀ (s : State) (b : Byte) (l : Nat), s.Quiescent → latchedLength s.cfg s.buf = some l →
    s.buf.length + 1 = s.cfg.packetOverhead + l →
    exec (.bBodyLast b) s =
      .next { s with buf := [], out := s.out ++ [s.buf ++ [b]], result := .packets [s.buf ++ [b]] }

/-- R167: exactly one transition applies to every state and byte, and it is the one an arriving byte decodes to; RESET and
END set the automaton's reset state. That each other transition is refused as not selected is the model's choice
(assumption log 9), and so is the event that presents the byte (assumption log 4). -/
def Obligations.ExactlyOneTransitionApplies : Prop :=
  ∀ s : State, s.Quiescent →
    (∀ b : Byte, ∃ i ∈ byteRowsOf b, decode s.cfg s.buf (.serial b) = .ok i ∧ (∃ t, exec i s = .next t) ∧
      ∀ j ∈ byteRowsOf b, j ≠ i → exec j s = .refused .notSelected) ∧
    (∀ i t, i = .reset ∨ i = .endStream → exec i s = .next t → automatonOf t.cfg t.buf = some ⟨.hunt, [], none⟩)

/-- R168, one byte: the transition that applies does to the whole state what PUSH does (the event that presents
the byte is the model's choice, assumption log 4). -/
def Obligations.TransitionEqualsPush : Prop :=
  ∀ (s : State) (b : Byte), s.Quiescent →
    ∃ i t, decode s.cfg s.buf (.serial b) = .ok i ∧ exec i s = .next t ∧ exec (.push b) s = .next t

/-- R168: the automaton, run from its reset state on its own registers, agrees with PUSH after every byte sequence. -/
def Obligations.AutomatonEqualsLoop : Prop :=
  ∀ (s : State) (bytes : Bytes), admitted s.cfg = true → s.buf = [] →
    ∃ r t, autoRun s.cfg automatonReset bytes = some r ∧ execAll (bytes.map .push) s = .next t ∧
      t.buf = r.next.buf ∧ t.out = s.out ++ r.packets ∧ t.diag = s.diag ++ r.events ∧
      phaseOf t.cfg t.buf = some r.next.phase ∧ latchedLength t.cfg t.buf = r.next.len

/-! ### The encoder (43_encoder.md) -/

/-- R151, R71: the frame ENCODE returns, byte by byte. -/
def Obligations.EncodedFrameLayout : Prop :=
  ∀ (s : State) (pl : Bytes), admitted s.cfg = true → pl.length ≤ 2 ^ (8 * s.cfg.lengthBytes) - 1 →
    pl.length ≤ s.cfg.maxLen →
    ∃ f, exec (.encode pl) s = .next { s with result := .frame f } ∧
      f.length = pl.length + s.cfg.packetOverhead ∧ f[0]? = some s.cfg.delimiter ∧
      (∀ i, i < s.cfg.lengthBytes →
        f[s.cfg.lengthOffset + i]? = some (BitVec.ofNat 8 (pl.length / 256 ^ i % 256))) ∧
      (∀ j, 1 ≤ j → j < s.cfg.packetOverhead → j < s.cfg.lengthOffset ∨ headerNeed s.cfg ≤ j → f[j]? = some 0x00) ∧
      (∀ j, j < pl.length → f[s.cfg.packetOverhead + j]? = pl[j]?)

/-- R152, R153: the two causes in their order; nothing else changes. -/
def Obligations.EncodeReportsFirstFailedCheck : Prop :=
  ∀ (s : State) (pl : Bytes), admitted s.cfg = true →
    (2 ^ (8 * s.cfg.lengthBytes) - 1 < pl.length →
      exec (.encode pl) s = .next { s with result := .raised (.encodeRangeError .lengthUnrepresentable) }) ∧
    (pl.length ≤ 2 ^ (8 * s.cfg.lengthBytes) - 1 → s.cfg.maxLen < pl.length →
      exec (.encode pl) s = .next { s with result := .raised (.encodeRangeError .lengthExceedsMaxLen) })

/-- R155: what ENCODE guarantees, and that the decoder takes X.LEN once and X.EMIT once on it. -/
def Obligations.EncodedFrameIsAccepted : Prop :=
  ∀ (s : State) (pl f : Bytes), exec (.encode pl) s = .next { s with result := .frame f } →
    f.head? = some s.cfg.delimiter ∧ lengthFieldSum s.cfg f = pl.length ∧ pl.length ≤ lmax s.cfg ∧
    f.length = s.cfg.packetOverhead + pl.length ∧
    execAll [.xLen pl.length, .xEmit f] { s with buf := f } = .next { s with buf := [], out := s.out ++ [f] }

/-! ### The header rows (30_encoding.md) -/

/-- R71, R73, R74 against R114: on any accumulator, a header row does what FEED of the header's bytes does, byte 0 first
(that a header row as an operation is the arrival of those bytes is the model's choice, assumption log 6). -/
def Obligations.HeaderRowsArriveAsTheirBytes : Prop :=
  ∀ s : State, admitted s.cfg = true →
    (∀ (d : Byte) (pre len post : Bytes),
      ∃ t, exec (.hdrGeneric d pre len post) s = .next t ∧ exec (.feed ([d] ++ pre ++ len ++ post)) s = .next t) ∧
    (∀ len : Byte, ∃ t, exec (.hdrDefault len) s = .next t ∧ exec (.feed [0xAA, len]) s = .next t) ∧
    (∀ lo hi : Byte, ∃ t, exec (.hdrScenario (hi ++ lo)) s = .next t ∧ exec (.feed [0x69, lo, hi]) s = .next t) ∧
    (∀ p len q : Byte, ∃ t, exec (.hdrPadded p len q) s = .next t ∧ exec (.feed [0x7E, p, len, q]) s = .next t)

/-- R71, R72, R76: a header of any admitted layout, whatever its PAD bytes, on an empty accumulator: a bare frame where the
length is 0, a candidate in BODY with that length where it is valid; above `maxLen` it is spurious, and the bytes behind
the delimiter are taken as if they had just arrived. -/
def Obligations.GenericHeaderArrival : Prop :=
  ∀ (s : State) (pre len post : Bytes), admitted s.cfg = true → s.buf = [] → pre.length + 1 = s.cfg.lengthOffset →
    len.length = s.cfg.lengthBytes → headerNeed s.cfg + post.length = s.cfg.packetOverhead →
    (le len = 0 →
      exec (.hdrGeneric s.cfg.delimiter pre len post) s =
        .next { s with out := s.out ++ [s.cfg.delimiter :: (pre ++ len ++ post)],
                       result := .packets [s.cfg.delimiter :: (pre ++ len ++ post)] }) ∧
    (0 < le len → le len ≤ s.cfg.maxLen →
      exec (.hdrGeneric s.cfg.delimiter pre len post) s =
        .next { s with buf := s.cfg.delimiter :: (pre ++ len ++ post), result := .packets [] } ∧
      latchedLength s.cfg (s.cfg.delimiter :: (pre ++ len ++ post)) = some (le len)) ∧
    (s.cfg.maxLen < le len →
      ∃ t, exec (.hdrGeneric s.cfg.delimiter pre len post) s = .next t ∧
        exec (.feed (pre ++ len ++ post)) { s with diag := s.diag ++ [.resync (le len)] } = .next t)

/-- R73: the default header; every length is accepted. -/
def Obligations.DefaultHeaderArrival : Prop :=
  ∀ (s : State) (len : Byte), s.cfg = ⟨0xAA, 2, 1, 1, 255⟩ → s.buf = [] →
    (len = 0 →
      exec (.hdrDefault len) s = .next { s with out := s.out ++ [[0xAA, len]], result := .packets [[0xAA, len]] }) ∧
    (len ≠ 0 →
      exec (.hdrDefault len) s = .next { s with buf := [0xAA, len], result := .packets [] } ∧
      latchedLength s.cfg [0xAA, len] = some len.toNat)

/-- R74: the scenario header; a high byte other than 00 makes the candidate spurious. -/
def Obligations.ScenarioHeaderArrival : Prop :=
  ∀ (s : State) (lo hi : Byte), s.cfg = ⟨0x69, 3, 2, 1, 255⟩ → s.buf = [] →
    (lo = 0 → hi = 0 →
      exec (.hdrScenario (hi ++ lo)) s =
        .next { s with out := s.out ++ [[0x69, lo, hi]], result := .packets [[0x69, lo, hi]] }) ∧
    (lo ≠ 0 → hi = 0 →
      exec (.hdrScenario (hi ++ lo)) s = .next { s with buf := [0x69, lo, hi], result := .packets [] } ∧
      latchedLength s.cfg [0x69, lo, hi] = some lo.toNat) ∧
    (hi ≠ 0 →
      exec (.hdrScenario (hi ++ lo)) s =
        .next { s with
          buf := if lo = 0x69 then [lo, hi] else if hi = 0x69 then [hi] else []
          diag := s.diag ++ [.resync (lo.toNat + 256 * hi.toNat)]
          result := .packets [] })

/-- R71, R76: the padded header of configuration `P`; both PAD bytes are passed through unexamined; a length above
16 makes the candidate spurious, and a delimiter among the three bytes behind it is a new candidate. -/
def Obligations.PaddedHeaderArrival : Prop :=
  ∀ (s : State) (p len q : Byte), s.cfg = ⟨0x7E, 4, 1, 2, 16⟩ → s.buf = [] →
    (len = 0 →
      exec (.hdrPadded p len q) s =
        .next { s with out := s.out ++ [[0x7E, p, len, q]], result := .packets [[0x7E, p, len, q]] }) ∧
    (len ≠ 0 → len.toNat ≤ 16 →
      exec (.hdrPadded p len q) s = .next { s with buf := [0x7E, p, len, q], result := .packets [] } ∧
      latchedLength s.cfg [0x7E, p, len, q] = some len.toNat) ∧
    (16 < len.toNat →
      exec (.hdrPadded p len q) s =
        .next { s with
          buf := if p = 0x7E ∧ q.toNat ≤ 16 then [p, len, q] else if len = 0x7E then [len, q]
            else if q = 0x7E then [q] else []
          diag := s.diag ++ .resync len.toNat :: (if p = 0x7E ∧ 16 < q.toNat then [.resync q.toNat] else [])
          result := .packets [] })

/-! ### Decoding, encoding, stepping -/

/-- Decode and encode agree for every operation of every format: the event of a well-formed operation that is selected
decodes to it, and whatever an event decodes to under an admitted configuration is well formed, selected, and has that
event (the events are the model's presentation, assumption log 4). -/
def Obligations.DecodeInvertsEncode : Prop :=
  ∀ (c : FrameConfig) (buf : Bytes), admitted c = true →
    (∀ i : Instr, wellFormed c i = true → selected c buf i = true → decode c buf (encode i) = .ok i) ∧
    (∀ (e : Event) (i : Instr), decode c buf e = .ok i →
      wellFormed c i = true ∧ selected c buf i = true ∧ encode i = e)

/-- A few words of the table, written out from its patterns (R73, R74, R82; the numbering and the configuration by
width are assumption log 7). -/
def Obligations.TableWordsDecode : Prop :=
  decodeTableWord 16 0b1010101000000101 = some (.hdrDefault 0x05) ∧
  decodeTableWord 24 0b011010010000010000000001 = some (.hdrScenario 0x0104) ∧
  decodeTableWord 32 0b01111110100110010000001010001000 = some (.hdrPadded 0x99 0x02 0x88) ∧
  decodeTableWord 8 0b10101010 = some (.bHuntDelim 0xAA) ∧
  decodeTableWord 8 0b00010000 = some (.bHuntNoise 0x10)

/-- A step runs the decoded operation, with the event taken off the queue, which is the model's choice (assumption log 1);
with nothing pending the state is held (R192). That an event to which no row applies is refused as undecodable is the
model's choice (assumption log 9). -/
def Obligations.StepRunsDecodedOperation : Prop :=
  (∀ (s : State) (e : Event) (rest : List Event) (i : Instr), s.pending = e :: rest →
    decode s.cfg s.buf e = .ok i → step s = exec i { s with pending := rest }) ∧
  (∀ s : State, s.pending = [] → step s = .next s) ∧
  (∀ (s : State) (e : Event) (rest : List Event) (why : DecodeError), s.pending = e :: rest →
    decode s.cfg s.buf e = .error why → step s = .refused (.undecodable why))

/-- R81, R110, R120, R150, R167: what an event decodes to can be carried out: on an admitted decoder only CONFIGURE can be
refused. The events that present HDR, BYTE and STEP rows are the model's choice (assumption log 4), so is the effect of a
header row as an operation (assumption log 6), and so is the refusal of an operation that is not selected, of which
`decode` answers none (assumption log 9). -/
def Obligations.DecodedOperationsComplete : Prop :=
  ∀ (s : State) (e : Event) (i : Instr), admitted s.cfg = true → decode s.cfg s.buf e = .ok i →
    (∀ o, i ≠ .configure o) → ∃ t, exec i s = .next t

/-- The invariant is kept by every step, from every state that has it: the configuration stays admitted, the accumulator in
normal form (R22), every packet a whole acceptable frame (R116), every event a length in `(maxLen, LREP]` (R31). -/
def Obligations.InvariantIsKept : Prop :=
  ∀ s t : State, s.Inv → step s = .next t → t.Inv

/-- R34: the reset state has the invariant; its accumulator and traces are empty (which configuration it has is the
model's choice, assumption log 2). -/
def Obligations.InvariantHoldsAtReset : Prop :=
  State.reset.Inv ∧ State.reset.buf = [] ∧ State.reset.out = [] ∧ State.reset.diag = []
end

