-- ==== Sys2Proof/Laws/Bytes.lean ====
section
/-! SUPPORT. The byte-order helpers, `find`, the primitives over the accumulator, and the encoder's writes. -/

namespace Sys2Proof.Machine

/-! ### Little-endian values -/

@[simp] theorem le_nil : le [] = 0 := rfl

@[simp] theorem le_cons (b : Byte) (s : Bytes) : le (b :: s) = b.toNat + 256 * le s := rfl

theorem le_append (s t : Bytes) : le (s ++ t) = le s + 256 ^ s.length * le t := by
  induction s with
  | nil => simp
  | cons b s ih => simp only [List.cons_append, le_cons, ih, List.length_cons, pow_succ]; ring

theorem le_lt (s : Bytes) : le s < 256 ^ s.length := by
  induction s with
  | nil => simp
  | cons b s ih =>
    have hb := b.isLt
    simp only [le_cons, List.length_cons, pow_succ]
    omega

@[simp] theorem leBytes_length (k v : Nat) : (leBytes k v).length = k := by simp [leBytes]

theorem leBytes_getElem? (k v i : Nat) (h : i < k) :
    (leBytes k v)[i]? = some (BitVec.ofNat 8 (v / 256 ^ i % 256)) := by simp [leBytes, h]

theorem leBytes_succ (k v : Nat) : leBytes (k + 1) v = BitVec.ofNat 8 v :: leBytes k (v / 256) := by
  apply List.ext_getElem?
  intro i
  cases i with
  | zero =>
    have : BitVec.ofNat 8 (v % 256) = BitVec.ofNat 8 v := by
      apply BitVec.eq_of_toNat_eq; simp
    simp [leBytes, this]
  | succ i =>
    simp only [List.getElem?_cons_succ, leBytes, List.getElem?_map]
    by_cases h : i < k
    · simp [h, Nat.div_div_eq_div_mul, pow_succ, Nat.mul_comm]
    · simp [h]

/-! ### `find` -/

theorem find_eq_none_iff (s : Bytes) (d : Byte) : find s d = none ↔ d ∉ s := by
  induction s with
  | nil => simp [find]
  | cons b s ih =>
    by_cases h : b = d
    · simp [find, h]
    · simp [find, h, ih, Ne.symm h]

theorem find_eq_zero_iff (s : Bytes) (d : Byte) : find s d = some 0 ↔ s.head? = some d := by
  cases s with
  | nil => simp [find]
  | cons b s => by_cases h : b = d <;> simp [find, h]

/-- Everything `find` can answer: the position of a byte equal to `d`, and none before it. -/
theorem find_eq_some_iff (s : Bytes) (d : Byte) (p : Nat) :
    find s d = some p ↔ s[p]? = some d ∧ d ∉ s.take p := by
  induction s generalizing p with
  | nil => simp [find]
  | cons b s ih =>
    by_cases h : b = d
    · cases p <;> simp [find, h]
    · cases p with
      | zero => simp [find, h]
      | succ p => simp [find, h, ih, Ne.symm h]

theorem find_lt {s : Bytes} {d : Byte} {p : Nat} (h : find s d = some p) : p < s.length := by
  have := ((find_eq_some_iff s d p).mp h).1
  exact (List.getElem?_eq_some_iff.mp this).1

theorem find_append_of_some {s : Bytes} {d : Byte} {p : Nat} (h : find s d = some p) (t : Bytes) :
    find (s ++ t) d = some p := by
  have hp := find_lt h
  rw [find_eq_some_iff] at h ⊢
  rw [List.getElem?_append_left hp, List.take_append_of_le_length hp.le]
  exact h

theorem head?_drop_find {s : Bytes} {d : Byte} {p : Nat} (h : find s d = some p) : (s.drop p).head? = some d := by
  rw [List.head?_drop]; exact ((find_eq_some_iff s d p).mp h).1

/-! ### Slices and MemRead -/

theorem slice_length {s : Bytes} {a b : Nat} (h : b ≤ s.length) : (slice s a b).length = b - a := by
  simp only [slice, List.length_take, List.length_drop]; omega

theorem slice_append {s : Bytes} {a b : Nat} (h : b ≤ s.length) (hab : a ≤ b) (t : Bytes) :
    slice (s ++ t) a b = slice s a b := by
  unfold slice
  rw [List.drop_append_of_le_length (hab.trans h), List.take_append_of_le_length]
  simp only [List.length_drop]; omega

theorem memRead_eq_some_iff (buf : Bytes) (addr k v : Nat) :
    memRead buf addr k = some v ↔
      addr + k ≤ buf.length ∧ 1 ≤ k ∧ k ≤ 4 ∧ v = le (slice buf addr (addr + k)) := by
  unfold memRead
  split
  · simp_all [eq_comm]
  · simp; intros; simp_all

theorem memRead_lt {buf : Bytes} {addr k v : Nat} (h : memRead buf addr k = some v) : v < 256 ^ k := by
  obtain ⟨hl, -, -, rfl⟩ := (memRead_eq_some_iff buf addr k v).mp h
  have := le_lt (slice buf addr (addr + k))
  rwa [slice_length hl, Nat.add_sub_cancel_left] at this

/-! ### Writes into the encoder's buffer -/

@[simp] theorem writeAt_length (f : Bytes) (pos : Nat) (w : Bytes) : (writeAt f pos w).length = f.length := by
  induction w generalizing f pos with
  | nil => rfl
  | cons b w ih => simp [writeAt, ih]

/-- Everything `writeAt` does: position `i` holds the written byte inside the window and the old one outside. -/
theorem writeAt_getElem? (f : Bytes) (pos : Nat) (w : Bytes) (h : pos + w.length ≤ f.length) (i : Nat) :
    (writeAt f pos w)[i]? = if pos ≤ i ∧ i < pos + w.length then w[i - pos]? else f[i]? := by
  induction w generalizing f pos with
  | nil => simp [writeAt]
  | cons b w ih =>
    simp only [List.length_cons] at h
    rw [writeAt, ih (f.set pos b) (pos + 1) (by simp; omega)]
    by_cases h1 : pos + 1 ≤ i
    · have e : i - pos = (i - (pos + 1)) + 1 := by omega
      by_cases h2 : i < pos + 1 + w.length
      · rw [if_pos ⟨h1, h2⟩, if_pos (by simp; omega), e, List.getElem?_cons_succ]
      · rw [if_neg (by omega), if_neg (by simp; omega), List.getElem?_set_ne (by omega)]
    · by_cases h2 : i = pos
      · subst h2
        rw [if_neg (by omega), if_pos (by simp), List.getElem?_set_self (by omega)]; simp
      · rw [if_neg (by omega), if_neg (by omega), List.getElem?_set_ne (by omega)]

end Sys2Proof.Machine
end

