-- ==== Sys2Proof/Laws/Extraction.lean ====
section
/-! SUPPORT. The length field, the decision tree (one lemma per branch) and the unfolding of EXTRACT. -/

namespace Sys2Proof.Machine

/-! ### Admitted configurations -/

theorem admitted_iff (cfg : FrameConfig) :
    admitted cfg = true ↔ 1 ≤ cfg.lengthBytes ∧ cfg.lengthBytes ≤ 4 ∧ 1 ≤ cfg.lengthOffset ∧
      cfg.lengthOffset + cfg.lengthBytes ≤ cfg.packetOverhead := by
  unfold admitted validate
  split
  · simp; omega
  · split
    · simp; omega
    · simp; omega

theorem two_le_headerNeed {cfg : FrameConfig} (h : admitted cfg = true) : 2 ≤ headerNeed cfg := by
  rw [admitted_iff] at h; unfold headerNeed; omega

theorem headerNeed_le_packetOverhead {cfg : FrameConfig} (h : admitted cfg = true) :
    headerNeed cfg ≤ cfg.packetOverhead := by
  rw [admitted_iff] at h; unfold headerNeed; omega

/-! ### The length field -/

theorem lengthAt_eq_none_iff {cfg : FrameConfig} (h : admitted cfg = true) (buf : Bytes) :
    lengthAt cfg buf = none ↔ buf.length < headerNeed cfg := by
  rw [admitted_iff] at h
  unfold lengthAt memRead headerNeed
  split
  · simp; omega
  · simp; omega

theorem lengthAt_eq_some_iff {cfg : FrameConfig} (h : admitted cfg = true) (buf : Bytes) (l : Nat) :
    lengthAt cfg buf = some l ↔
      headerNeed cfg ≤ buf.length ∧ l = le (slice buf cfg.lengthOffset (headerNeed cfg)) := by
  rw [admitted_iff] at h
  unfold lengthAt
  rw [memRead_eq_some_iff]
  unfold headerNeed
  constructor
  · rintro ⟨h1, -, -, h2⟩; exact ⟨h1, h2⟩
  · rintro ⟨h1, h2⟩; exact ⟨h1, h.1, h.2.1, h2⟩

/-- Bytes in `buf` are never modified: more bytes behind do not change the length read (R124). -/
theorem lengthAt_append {cfg : FrameConfig} (h : admitted cfg = true) {buf : Bytes} {l : Nat}
    (hl : lengthAt cfg buf = some l) (x : Bytes) : lengthAt cfg (buf ++ x) = some l := by
  rw [lengthAt_eq_some_iff h] at hl ⊢
  have : cfg.lengthOffset ≤ headerNeed cfg := by unfold headerNeed; omega
  refine ⟨by simp; omega, ?_⟩
  rw [slice_append hl.1 this]; exact hl.2

theorem lengthAt_le_lrep {cfg : FrameConfig} {buf : Bytes} {l : Nat} (hl : lengthAt cfg buf = some l) :
    l ≤ lrep cfg := by
  have := memRead_lt hl
  have e : (256 : Nat) ^ cfg.lengthBytes = 2 ^ (8 * cfg.lengthBytes) := by rw [pow_mul]; norm_num
  unfold lrep; omega

/-! ### The decision tree: exactly when each branch is taken -/

theorem choose_nil (cfg : FrameConfig) : choose cfg [] = .empty := rfl

theorem choose_of_find_none {cfg : FrameConfig} {buf : Bytes} (h0 : buf ≠ []) (h : find buf cfg.delimiter = none) :
    choose cfg buf = .scan := by simp [choose, h0, h]

theorem choose_of_find_pos {cfg : FrameConfig} {buf : Bytes} {p : Nat} (h : find buf cfg.delimiter = some p)
    (hp : 0 < p) : choose cfg buf = .align p := by
  have h0 : buf ≠ [] := by rintro rfl; simp [find] at h
  obtain ⟨q, rfl⟩ : ∃ q, p = q + 1 := ⟨p - 1, by omega⟩
  simp [choose, h0, h]

/-- At a candidate delimiter the length decides (R123 to R127). -/
theorem choose_of_head {cfg : FrameConfig} {buf : Bytes} (h : buf.head? = some cfg.delimiter) :
    choose cfg buf =
      match lengthAt cfg buf with
      | none => .hwait
      | some l =>
        if cfg.maxLen < l then .resync l
        else if buf.length < cfg.packetOverhead + l then .bwait l
        else .emit l := by
  have h0 : buf ≠ [] := by rintro rfl; simp at h
  have hz : find buf cfg.delimiter = some 0 := (find_eq_zero_iff _ _).mpr h
  simp [choose, h0, hz] <;> rfl

/-- Every buffer is in exactly one of four situations, and the tree's branch follows from it. -/
theorem choose_cases (cfg : FrameConfig) (buf : Bytes) :
    buf = [] ∧ choose cfg buf = .empty ∨
    buf ≠ [] ∧ cfg.delimiter ∉ buf ∧ choose cfg buf = .scan ∨
    (∃ p, 0 < p ∧ find buf cfg.delimiter = some p ∧ choose cfg buf = .align p) ∨
    buf.head? = some cfg.delimiter ∧
      (lengthAt cfg buf = none ∧ choose cfg buf = .hwait ∨
       ∃ l, lengthAt cfg buf = some l ∧
        (cfg.maxLen < l ∧ choose cfg buf = .resync l ∨
         l ≤ cfg.maxLen ∧ buf.length < cfg.packetOverhead + l ∧ choose cfg buf = .bwait l ∨
         l ≤ cfg.maxLen ∧ cfg.packetOverhead + l ≤ buf.length ∧ choose cfg buf = .emit l)) := by
  by_cases h0 : buf = []
  · exact .inl ⟨h0, by subst h0; rfl⟩
  cases hf : find buf cfg.delimiter with
  | none => exact .inr (.inl ⟨h0, (find_eq_none_iff _ _).mp hf, choose_of_find_none h0 hf⟩)
  | some p =>
    rcases Nat.eq_zero_or_pos p with rfl | hp
    · have hh := (find_eq_zero_iff _ _).mp hf
      refine .inr (.inr (.inr ⟨hh, ?_⟩))
      rw [choose_of_head hh]
      cases hl : lengthAt cfg buf with
      | none => exact .inl ⟨rfl, rfl⟩
      | some l =>
        refine .inr ⟨l, rfl, ?_⟩
        by_cases h1 : cfg.maxLen < l
        · exact .inl ⟨h1, if_pos h1⟩
        · by_cases h2 : buf.length < cfg.packetOverhead + l
          · exact .inr (.inl ⟨by omega, h2, by simp [h1, h2]⟩)
          · exact .inr (.inr ⟨by omega, by omega, by simp [h1, h2]⟩)
    · exact .inr (.inr (.inl ⟨p, hp, rfl, choose_of_find_pos hf hp⟩))

/-! ### The loop -/

/-- Enough passes are enough: every pass that goes on shortens the buffer (R128). -/
theorem extractLoop_of_le {cfg : FrameConfig} (h : admitted cfg = true) :
    ∀ (k m : Nat) (buf : Bytes), buf.length ≤ k → buf.length ≤ m → extractLoop cfg k buf = extractLoop cfg m buf := by
  have hpo : 2 ≤ cfg.packetOverhead := (two_le_headerNeed h).trans (headerNeed_le_packetOverhead h)
  intro k
  induction k with
  | zero =>
    intro m buf hk _
    obtain rfl : buf = [] := List.length_eq_zero_iff.mp (by omega)
    cases m <;> simp [extractLoop, choose_nil]
  | succ k ih =>
    intro m buf hk hm
    cases m with
    | zero =>
      obtain rfl : buf = [] := List.length_eq_zero_iff.mp (by omega)
      simp [extractLoop, choose_nil]
    | succ m =>
      have step : ∀ j, 1 ≤ j → buf ≠ [] → extractLoop cfg k (discardFront buf j) = extractLoop cfg m (discardFront buf j) := by
        intro j hj hne
        have := List.length_pos_iff.mpr hne
        exact ih m _ (by simp [discardFront]; omega) (by simp [discardFront]; omega)
      rcases choose_cases cfg buf with ⟨-, hc⟩ | ⟨h0, -, hc⟩ | ⟨p, hp, hf, hc⟩ | ⟨hh, ⟨-, hc⟩ | ⟨l, -, ⟨-, hc⟩ | ⟨-, -, hc⟩ | ⟨-, -, hc⟩⟩⟩
      · simp [extractLoop, hc]
      · simp [extractLoop, hc, step buf.length (List.length_pos_iff.mpr h0) h0]
      · have h0 : buf ≠ [] := by rintro rfl; simp [find] at hf
        simp [extractLoop, hc, step p hp h0]
      · simp [extractLoop, hc]
      · have h0 : buf ≠ [] := by rintro rfl; simp at hh
        simp [extractLoop, hc, step 1 le_rfl h0]
      · simp [extractLoop, hc]
      · have h0 : buf ≠ [] := by rintro rfl; simp at hh
        simp [extractLoop, hc, step (cfg.packetOverhead + l) (by omega) h0]

/-- EXTRACT unfolded once (R120). -/
theorem extract_unfold {cfg : FrameConfig} (h : admitted cfg = true) (buf : Bytes) :
    extract cfg buf =
      match choose cfg buf with
      | .empty => ⟨buf, [], []⟩
      | .scan => extract cfg []
      | .align p => extract cfg (buf.drop p)
      | .hwait => ⟨buf, [], []⟩
      | .resync l => { extract cfg (buf.drop 1) with events := .resync l :: (extract cfg (buf.drop 1)).events }
      | .bwait _ => ⟨buf, [], []⟩
      | .emit l =>
        { extract cfg (buf.drop (cfg.packetOverhead + l)) with
          packets := buf.take (cfg.packetOverhead + l) :: (extract cfg (buf.drop (cfg.packetOverhead + l))).packets } := by
  have e : extract cfg buf = extractLoop cfg (buf.length + 1) buf :=
    extractLoop_of_le h _ _ _ le_rfl (Nat.le_succ _)
  have sub : ∀ j, extractLoop cfg buf.length (discardFront buf j) = extract cfg (buf.drop j) := fun j =>
    extractLoop_of_le h _ _ _ (by simp [discardFront]) (by simp [discardFront])
  rw [e, extractLoop]
  cases choose cfg buf <;> simp [sub]

@[simp] theorem extract_nil (cfg : FrameConfig) : extract cfg [] = ⟨[], [], []⟩ := rfl

end Sys2Proof.Machine
end

