-- ==== Sys2Proof/Laws/Flags.lean ====
section
/-! SUPPORT. The normal form, the phase and the derived registers. -/

namespace Sys2Proof.Machine

/-- The three shapes of R22, spelled out. -/
theorem normalForm_iff {cfg : FrameConfig} (h : admitted cfg = true) (buf : Bytes) :
    normalForm cfg buf = true ↔
      buf = [] ∨ buf.head? = some cfg.delimiter ∧
        (lengthAt cfg buf = none ∨
         ∃ l, lengthAt cfg buf = some l ∧ l ≤ cfg.maxLen ∧ buf.length < cfg.packetOverhead + l) := by
  unfold normalForm shapeHeader shapeBody
  rcases hl : lengthAt cfg buf with _ | l
  · have := (lengthAt_eq_none_iff h buf).mp hl
    simp [this]
  · have hn := ((lengthAt_eq_some_iff h buf l).mp hl).1
    simp [hn, Nat.not_lt.mpr hn]

/-- The accumulator is quiescent exactly where the loop exits (R22, R120). -/
theorem normalForm_iff_choose {cfg : FrameConfig} (h : admitted cfg = true) (buf : Bytes) :
    normalForm cfg buf = true ↔
      choose cfg buf = .empty ∨ choose cfg buf = .hwait ∨ ∃ l, choose cfg buf = .bwait l := by
  have nothead : ∀ {p : Nat}, 0 < p → find buf cfg.delimiter = some p → ¬ buf.head? = some cfg.delimiter := by
    intro p hp hf hh
    rw [← find_eq_zero_iff, hf] at hh
    simp at hh; omega
  rw [normalForm_iff h]
  rcases choose_cases cfg buf with ⟨hb, hc⟩ | ⟨h0, hd, hc⟩ | ⟨p, hp, hf, hc⟩ | ⟨hh, ⟨hl, hc⟩ | ⟨l, hl, ⟨hm, hc⟩ | ⟨hm, hn, hc⟩ | ⟨hm, hn, hc⟩⟩⟩
  · simp [hc]; exact .inl hb
  · have : ¬ buf.head? = some cfg.delimiter := fun e => hd (List.mem_of_mem_head? e)
    simp [h0, hc, this]
  · have h0 : buf ≠ [] := by rintro rfl; simp [find] at hf
    simp [h0, hc, nothead hp hf]
  · simp [hh, hl, hc]
  · have h0 : buf ≠ [] := by rintro rfl; simp at hh
    simp [h0, hl, hc]; omega
  · simp [hh, hl, hc, hm, hn]
  · have h0 : buf ≠ [] := by rintro rfl; simp at hh
    simp [h0, hl, hc]; omega

theorem phaseOf_nil (cfg : FrameConfig) : phaseOf cfg [] = some .hunt := rfl

/-- In HEADER: a candidate whose length field is not complete (R26). -/
theorem phaseOf_eq_header {cfg : FrameConfig} (h : admitted cfg = true) {buf : Bytes}
    (hh : buf.head? = some cfg.delimiter) (hl : buf.length < headerNeed cfg) : phaseOf cfg buf = some .header := by
  have h0 : buf ≠ [] := by rintro rfl; simp at hh
  have : normalForm cfg buf = true := (normalForm_iff h buf).mpr (.inr ⟨hh, .inl ((lengthAt_eq_none_iff h buf).mpr hl)⟩)
  simp [phaseOf, this, h0, hl]

/-- In BODY: a valid length and an incomplete frame (R26). -/
theorem phaseOf_eq_body {cfg : FrameConfig} (h : admitted cfg = true) {buf : Bytes} {l : Nat}
    (hh : buf.head? = some cfg.delimiter) (hl : lengthAt cfg buf = some l) (hm : l ≤ cfg.maxLen)
    (hn : buf.length < cfg.packetOverhead + l) : phaseOf cfg buf = some .body := by
  have h0 : buf ≠ [] := by rintro rfl; simp at hh
  have : normalForm cfg buf = true := (normalForm_iff h buf).mpr (.inr ⟨hh, .inr ⟨l, hl, hm, hn⟩⟩)
  have hge := ((lengthAt_eq_some_iff h buf l).mp hl).1
  simp [phaseOf, this, h0, hge]

/-- Everything the automaton's view of a quiescent accumulator can be (R160). -/
theorem automatonOf_cases {cfg : FrameConfig} (h : admitted cfg = true) {buf : Bytes}
    (hq : normalForm cfg buf = true) :
    buf = [] ∧ automatonOf cfg buf = some ⟨.hunt, [], none⟩ ∨
    buf.head? = some cfg.delimiter ∧ buf.length < headerNeed cfg ∧ automatonOf cfg buf = some ⟨.header, buf, none⟩ ∨
    ∃ l, buf.head? = some cfg.delimiter ∧ lengthAt cfg buf = some l ∧ l ≤ cfg.maxLen ∧
      buf.length < cfg.packetOverhead + l ∧ automatonOf cfg buf = some ⟨.body, buf, some l⟩ := by
  rcases (normalForm_iff h buf).mp hq with rfl | ⟨hh, hl | ⟨l, hl, hm, hn⟩⟩
  · exact .inl ⟨rfl, rfl⟩
  · have hlt := (lengthAt_eq_none_iff h buf).mp hl
    exact .inr (.inl ⟨hh, hlt, by simp [automatonOf, latchedLength, phaseOf_eq_header h hh hlt]⟩)
  · exact .inr (.inr ⟨l, hh, hl, hm, hn, by simp [automatonOf, latchedLength, phaseOf_eq_body h hh hl hm hn, hl]⟩)

end Sys2Proof.Machine
end

