-- ==== Sys2Proof/Laws/State.lean ====
section
/-! SUPPORT. What each update of the state does to each field. -/

namespace Sys2Proof.Machine

@[simp] theorem State.withBuf_cfg (s : State) (buf : Bytes) : (s.withBuf buf).cfg = s.cfg := rfl
@[simp] theorem State.withBuf_buf (s : State) (buf : Bytes) : (s.withBuf buf).buf = buf := rfl
@[simp] theorem State.withBuf_out (s : State) (buf : Bytes) : (s.withBuf buf).out = s.out := rfl
@[simp] theorem State.withBuf_diag (s : State) (buf : Bytes) : (s.withBuf buf).diag = s.diag := rfl
@[simp] theorem State.withBuf_result (s : State) (buf : Bytes) : (s.withBuf buf).result = s.result := rfl
@[simp] theorem State.withBuf_pending (s : State) (buf : Bytes) : (s.withBuf buf).pending = s.pending := rfl

@[simp] theorem State.returning_cfg (s : State) (r : Result) : (s.returning r).cfg = s.cfg := rfl
@[simp] theorem State.returning_buf (s : State) (r : Result) : (s.returning r).buf = s.buf := rfl
@[simp] theorem State.returning_out (s : State) (r : Result) : (s.returning r).out = s.out := rfl
@[simp] theorem State.returning_diag (s : State) (r : Result) : (s.returning r).diag = s.diag := rfl
@[simp] theorem State.returning_result (s : State) (r : Result) : (s.returning r).result = r := rfl
@[simp] theorem State.returning_pending (s : State) (r : Result) : (s.returning r).pending = s.pending := rfl

@[simp] theorem State.emitOut_cfg (s : State) (f : Bytes) : (s.emitOut f).cfg = s.cfg := rfl
@[simp] theorem State.emitOut_buf (s : State) (f : Bytes) : (s.emitOut f).buf = s.buf := rfl
@[simp] theorem State.emitOut_out (s : State) (f : Bytes) : (s.emitOut f).out = s.out ++ [f] := rfl
@[simp] theorem State.emitOut_diag (s : State) (f : Bytes) : (s.emitOut f).diag = s.diag := rfl
@[simp] theorem State.emitOut_result (s : State) (f : Bytes) : (s.emitOut f).result = s.result := rfl
@[simp] theorem State.emitOut_pending (s : State) (f : Bytes) : (s.emitOut f).pending = s.pending := rfl

@[simp] theorem State.emitDiag_cfg (s : State) (e : DiagEvent) : (s.emitDiag e).cfg = s.cfg := rfl
@[simp] theorem State.emitDiag_buf (s : State) (e : DiagEvent) : (s.emitDiag e).buf = s.buf := rfl
@[simp] theorem State.emitDiag_out (s : State) (e : DiagEvent) : (s.emitDiag e).out = s.out := rfl
@[simp] theorem State.emitDiag_diag (s : State) (e : DiagEvent) : (s.emitDiag e).diag = s.diag ++ [e] := rfl
@[simp] theorem State.emitDiag_result (s : State) (e : DiagEvent) : (s.emitDiag e).result = s.result := rfl
@[simp] theorem State.emitDiag_pending (s : State) (e : DiagEvent) : (s.emitDiag e).pending = s.pending := rfl

@[simp] theorem State.deliver_cfg (s : State) (r : Extraction) : (s.deliver r).cfg = s.cfg := rfl
@[simp] theorem State.deliver_buf (s : State) (r : Extraction) : (s.deliver r).buf = r.buf := rfl
@[simp] theorem State.deliver_out (s : State) (r : Extraction) : (s.deliver r).out = s.out ++ r.packets := rfl
@[simp] theorem State.deliver_diag (s : State) (r : Extraction) : (s.deliver r).diag = s.diag ++ r.events := rfl
@[simp] theorem State.deliver_result (s : State) (r : Extraction) : (s.deliver r).result = .packets r.packets := rfl
@[simp] theorem State.deliver_pending (s : State) (r : Extraction) : (s.deliver r).pending = s.pending := rfl

@[simp] theorem State.accept_cfg (s : State) (bytes : Bytes) : (s.accept bytes).cfg = s.cfg := rfl
@[simp] theorem State.accept_buf (s : State) (bytes : Bytes) :
    (s.accept bytes).buf = (extract s.cfg (s.buf ++ bytes)).buf := rfl
@[simp] theorem State.accept_out (s : State) (bytes : Bytes) :
    (s.accept bytes).out = s.out ++ (extract s.cfg (s.buf ++ bytes)).packets := rfl
@[simp] theorem State.accept_diag (s : State) (bytes : Bytes) :
    (s.accept bytes).diag = s.diag ++ (extract s.cfg (s.buf ++ bytes)).events := rfl
@[simp] theorem State.accept_result (s : State) (bytes : Bytes) :
    (s.accept bytes).result = .packets (extract s.cfg (s.buf ++ bytes)).packets := rfl
@[simp] theorem State.accept_pending (s : State) (bytes : Bytes) : (s.accept bytes).pending = s.pending := rfl

@[simp] theorem State.cleared_cfg (s : State) : (s.cleared).cfg = s.cfg := rfl
@[simp] theorem State.cleared_buf (s : State) : (s.cleared).buf = [] := rfl
@[simp] theorem State.cleared_out (s : State) : (s.cleared).out = s.out := rfl
@[simp] theorem State.cleared_diag (s : State) : (s.cleared).diag = s.diag := rfl
@[simp] theorem State.cleared_result (s : State) : (s.cleared).result = .packets [] := rfl
@[simp] theorem State.cleared_pending (s : State) : (s.cleared).pending = s.pending := rfl

@[simp] theorem State.constructed_cfg (s : State) (cfg : FrameConfig) : (s.constructed cfg).cfg = cfg := rfl
@[simp] theorem State.constructed_buf (s : State) (cfg : FrameConfig) : (s.constructed cfg).buf = [] := rfl
@[simp] theorem State.constructed_out (s : State) (cfg : FrameConfig) : (s.constructed cfg).out = [] := rfl
@[simp] theorem State.constructed_diag (s : State) (cfg : FrameConfig) : (s.constructed cfg).diag = [] := rfl
@[simp] theorem State.constructed_result (s : State) (cfg : FrameConfig) :
    (s.constructed cfg).result = .created := rfl
@[simp] theorem State.constructed_pending (s : State) (cfg : FrameConfig) :
    (s.constructed cfg).pending = s.pending := rfl

end Sys2Proof.Machine
end

