-- ==== Sys2Proof/Laws/Ops.lean ====
section
/-! SUPPORT. The shared operations over the state: what each can answer. -/

namespace Sys2Proof.Machine

theorem fetch_nil {s : State} (h : s.pending = []) : fetch s = none := by simp [fetch, h]

theorem fetch_cons {s : State} {e : Event} {rest : List Event} (h : s.pending = e :: rest) :
    fetch s = some (e, { s with pending := rest }) := by simp [fetch, h]

/-- `onInstance` answers a next state exactly under an admitted configuration (R102). -/
theorem onInstance_eq_next_iff {s n t : State} : onInstance s n = .next t ↔ admitted s.cfg = true ∧ n = t := by
  unfold onInstance; split <;> simp_all

/-- `ifSelected` answers a next state exactly where the operation is selected (R81, R102). -/
theorem ifSelected_eq_next_iff {i : Instr} {s n t : State} :
    ifSelected i s n = .next t ↔ admitted s.cfg = true ∧ selected s.cfg s.buf i = true ∧ n = t := by
  unfold ifSelected; split
  · simp_all
  · split <;> simp_all

/-- A condition other than ResyncEvent changes the result and nothing else (R187). -/
theorem takeCondition_configError (s : State) (c : ConfigCause) :
    s.takeCondition (.configError c) = { s with result := .raised (.configError c) } := rfl

theorem takeCondition_encodeRangeError (s : State) (c : EncodeCause) :
    s.takeCondition (.encodeRangeError c) = { s with result := .raised (.encodeRangeError c) } := rfl

/-- A ResyncEvent records the rejected length and drops exactly one byte (R125, R183). -/
theorem takeCondition_resyncEvent (s : State) (l : Nat) :
    s.takeCondition (.resyncEvent l) = { s with diag := s.diag ++ [.resync l], buf := s.buf.drop 1 } := rfl

/-- PUSH's append is MemWrite at the end of the accumulator (R113). -/
theorem memWrite_end (buf : Bytes) (b : Byte) : memWrite buf buf.length 1 b.toNat = some (buf ++ [b]) := by
  simp [memWrite, leBytes_succ]; rfl

/-- `deliver` as one record update. -/
theorem deliver_eq (s : State) (r : Extraction) :
    s.deliver r = { s with buf := r.buf, out := s.out ++ r.packets, diag := s.diag ++ r.events,
                           result := .packets r.packets } := rfl

end Sys2Proof.Machine
end

