-- ==== Sys2Proof/Laws/ByteSerial.lean ====
section
/-! SUPPORT. The rows of the per-byte automaton: which row a byte takes in each phase (R161 to R167). -/

namespace Sys2Proof.Machine

theorem byteRow_hunt (cfg : FrameConfig) (buf : Bytes) (len : Option Nat) (b : Byte) :
    byteRow cfg ⟨.hunt, buf, len⟩ b = some (if b = cfg.delimiter then .huntDelim else .huntNoise) := by
  have hff : ∀ x : Byte, x &&& 255#8 = x := by
    intro x
    apply BitVec.eq_of_toNat_eq
    rw [BitVec.toNat_and]
    exact (Nat.and_two_pow_sub_one_eq_mod x.toNat 8).trans (Nat.mod_eq_of_lt x.isLt)
  by_cases h : b = cfg.delimiter
  · simp [byteRow, byteTable, byteApplies, byteSelect, hff, h]
  · have : (b == cfg.delimiter) = false := by simpa using h
    simp [byteRow, byteTable, byteApplies, byteSelect, List.find?, hff, h, this]

theorem byteRow_header (cfg : FrameConfig) (buf : Bytes) (len : Option Nat) (b : Byte) :
    byteRow cfg ⟨.header, buf, len⟩ b =
      if buf.length + 1 < headerNeed cfg then some .headerAcc
      else if buf.length + 1 = headerNeed cfg then some .headerLast else none := by
  have e1 : (Phase.hunt == Phase.header) = false := rfl
  have e2 : (Phase.body == Phase.header) = false := rfl
  by_cases h1 : buf.length + 1 < headerNeed cfg
  · simp [byteRow, byteTable, byteApplies, byteSelect, List.find?, e1, h1]
  · by_cases h2 : buf.length + 1 = headerNeed cfg
    · simp [byteRow, byteTable, byteApplies, byteSelect, List.find?, e1, h2]
    · simp [byteRow, byteTable, byteApplies, byteSelect, List.find?, e1, e2, h1, h2]

theorem byteRow_body (cfg : FrameConfig) (buf : Bytes) (l : Nat) (b : Byte) :
    byteRow cfg ⟨.body, buf, some l⟩ b =
      if buf.length + 1 < cfg.packetOverhead + l then some .bodyAcc
      else if buf.length + 1 = cfg.packetOverhead + l then some .bodyLast else none := by
  have e1 : (Phase.hunt == Phase.body) = false := rfl
  have e2 : (Phase.header == Phase.body) = false := rfl
  by_cases h1 : buf.length + 1 < cfg.packetOverhead + l
  · simp [byteRow, byteTable, byteApplies, byteSelect, List.find?, e1, e2, h1]
  · by_cases h2 : buf.length + 1 = cfg.packetOverhead + l
    · simp [byteRow, byteTable, byteApplies, byteSelect, List.find?, e1, e2, h2]
    · simp [byteRow, byteTable, byteApplies, byteSelect, List.find?, e1, e2, h1, h2]

end Sys2Proof.Machine
end

