-- ==== Sys2Proof/Laws/LengthField.lean ====
section
/-! SUPPORT. The length field as the weighted sum of the spec (30_encoding.md R72, 42_decoder_extraction.md R124), and the
bytes of a header whose field is written as two bytes (R74). -/

namespace Sys2Proof.Machine

theorem le_eq_sum (s : Bytes) : le s = ∑ i ∈ Finset.range s.length, (s.getD i 0).toNat * 256 ^ i := by
  induction s with
  | nil => simp
  | cons b s ih =>
    rw [le_cons, List.length_cons, Finset.sum_range_succ', ih, Finset.mul_sum]
    simp only [List.getD_cons_succ, List.getD_cons_zero, pow_zero, mul_one]
    rw [Nat.add_comm]
    congr 1
    apply Finset.sum_congr rfl
    intros; ring

theorem le_slice_sum (buf : Bytes) (a k : Nat) (h : a + k ≤ buf.length) :
    le (slice buf a (a + k)) = ∑ i ∈ Finset.range k, (buf.getD (a + i) 0).toNat * 256 ^ i := by
  rw [le_eq_sum, slice_length h, Nat.add_sub_cancel_left]
  apply Finset.sum_congr rfl
  intro i hi
  rw [Finset.mem_range] at hi
  congr 2
  simp only [slice, List.getD_eq_getElem?_getD, List.getElem?_take, List.getElem?_drop]
  rw [if_pos (by omega)]

theorem lengthAt_eq_lengthFieldSum {c : FrameConfig} (h : admitted c = true) {buf : Bytes} (hn : headerNeed c ≤ buf.length) :
    lengthAt c buf = some (lengthFieldSum c buf) := by
  rw [lengthAt_eq_some_iff h]
  exact ⟨hn, (le_slice_sum buf _ _ hn).symm⟩

theorem lengthFieldSum_of_lengthAt {c : FrameConfig} (h : admitted c = true) {buf : Bytes} {l : Nat}
    (hl : lengthAt c buf = some l) : headerNeed c ≤ buf.length ∧ l = lengthFieldSum c buf := by
  have := ((lengthAt_eq_some_iff h buf l).mp hl).1
  rw [lengthAt_eq_lengthFieldSum h this] at hl
  exact ⟨this, by simpa using hl.symm⟩

/-- The low byte of the sixteen L bits is byte 1 of the header, the high byte is byte 2 (R74). -/
theorem scenarioHeader_append (lo hi : Byte) : scenarioHeader (hi ++ lo) = [0x69, lo, hi] := by
  have low : BitVec.extractLsb' 0 8 (hi ++ lo) = lo := by
    apply BitVec.eq_of_getLsbD_eq
    intro i hi'
    rw [BitVec.getLsbD_extractLsb']
    simp only [hi', decide_true, Bool.true_and]
    exact (BitVec.getLsbD_append (x := hi) (y := lo) (i := 0 + i)).trans (by simp [hi'])
  have high : BitVec.extractLsb' 8 8 (hi ++ lo) = hi := by
    apply BitVec.eq_of_getLsbD_eq
    intro i hi'
    rw [BitVec.getLsbD_extractLsb']
    simp only [hi', decide_true, Bool.true_and]
    exact (BitVec.getLsbD_append (x := hi) (y := lo) (i := 8 + i)).trans (by simp)
  unfold scenarioHeader
  rw [low, high]

end Sys2Proof.Machine
end

