-- ==== Sys2Proof/Laws/PerInstr.lean ====
section
/-! SUPPORT. Statements made per instruction. -/

namespace Sys2Proof.Laws.EncodeFormat

open Sys2Proof

/-- The event an operation is presented as belongs to the format of its row (spec/30_encoding.md R81, R82). -/
def Statement (i : Instr) : Prop := (Sys2Proof.encode i).format = i.format

theorem hdrGeneric : ∀ d p l q, Statement (.hdrGeneric d p l q) := fun _ _ _ _ => rfl
theorem hdrDefault : ∀ l, Statement (.hdrDefault l) := fun _ => rfl
theorem hdrScenario : ∀ l, Statement (.hdrScenario l) := fun _ => rfl
theorem hdrPadded : ∀ p l q, Statement (.hdrPadded p l q) := fun _ _ _ => rfl
theorem configure : ∀ o, Statement (.configure o) := fun _ => rfl
theorem reset : Statement .reset := rfl
theorem endStream : Statement .endStream := rfl
theorem push : ∀ b, Statement (.push b) := fun _ => rfl
theorem feed : ∀ c, Statement (.feed c) := fun _ => rfl
theorem encode : ∀ p, Statement (.encode p) := fun _ => rfl
theorem extract : Statement .extract := rfl
theorem xScan : Statement .xScan := rfl
theorem xAlign : ∀ p, Statement (.xAlign p) := fun _ => rfl
theorem xHwait : Statement .xHwait := rfl
theorem xLen : ∀ l, Statement (.xLen l) := fun _ => rfl
theorem xResync : ∀ l, Statement (.xResync l) := fun _ => rfl
theorem xBwait : Statement .xBwait := rfl
theorem xEmit : ∀ f, Statement (.xEmit f) := fun _ => rfl
theorem bHuntDelim : ∀ b, Statement (.bHuntDelim b) := fun _ => rfl
theorem bHuntNoise : ∀ b, Statement (.bHuntNoise b) := fun _ => rfl
theorem bHeaderAcc : ∀ b, Statement (.bHeaderAcc b) := fun _ => rfl
theorem bHeaderLast : ∀ b, Statement (.bHeaderLast b) := fun _ => rfl
theorem bBodyAcc : ∀ b, Statement (.bBodyAcc b) := fun _ => rfl
theorem bBodyLast : ∀ b, Statement (.bBodyLast b) := fun _ => rfl

end Sys2Proof.Laws.EncodeFormat
end

