-- ==== Sys2Proof/Tests/Slice0.lean ====
section
/-! SUPPORT. Tests: the ill-formed terms that the checks refuse, words written out from the spec's encodings, one or two
steps per operation with results from the spec's own vectors (95_test_vectors.md, 40_configuration.md R106), and for every
obligation with hypotheses a state and operands that meet them. -/

namespace Sys2Proof.Tests

open Sys2Proof Sys2Proof.Machine

/-- Configuration `M4` of 95_test_vectors.md: the defaults with `maxLen = 4`. -/
def m4 : FrameConfig := ⟨0xAA, 2, 1, 1, 4⟩

/-- Configuration `Z`: the defaults with `maxLen = 0`. -/
def zeroMax : FrameConfig := ⟨0xAA, 2, 1, 1, 0⟩

/-- Configuration `W`: a 32-bit length and a PAD byte behind it. -/
def wide : FrameConfig := ⟨0x7E, 6, 4, 1, 1000⟩

/-- A fresh instance of `c` whose accumulator holds `buf`. -/
def holding (c : FrameConfig) (buf : Bytes) : State := { State.reset with cfg := c, buf := buf }

/-- The answer is a next state with this property. -/
def goesTo (a : Ans) (p : State → Bool) : Bool :=
  match a with
  | .next t => p t
  | .fault _ => false
  | .refused _ => false

/-- The answer is this refusal. -/
def refuses (a : Ans) (r : Refusal) : Bool :=
  match a with
  | .next _ => false
  | .fault _ => false
  | .refused q => q == r

/-! ### The checks of WellFormed refuse -/

theorem test_illformed_generic_delimiter : wellFormed wide (.hdrGeneric 0x7F [] [0, 0, 0, 0] [0]) = false := by decide
theorem test_illformed_generic_pad_before : wellFormed wide (.hdrGeneric 0x7E [0] [0, 0, 0, 0] [0]) = false := by decide
theorem test_illformed_generic_length_width : wellFormed wide (.hdrGeneric 0x7E [] [0, 0] [0]) = false := by decide
theorem test_illformed_generic_pad_after : wellFormed wide (.hdrGeneric 0x7E [] [0, 0, 0, 0] []) = false := by decide
theorem test_illformed_generic_named_default : wellFormed defaultConfig (.hdrGeneric 0xAA [] [0] []) = false := by decide
theorem test_illformed_generic_named_scenario : wellFormed scenarioConfig (.hdrGeneric 0x69 [] [0, 0] []) = false := by decide
theorem test_illformed_generic_named_padded : wellFormed paddedConfig (.hdrGeneric 0x7E [0] [0] [0]) = false := by decide
theorem test_wellformed_generic : wellFormed wide (.hdrGeneric 0x7E [] [0, 0, 0, 0] [0]) = true := by decide
theorem test_illformed_default : wellFormed scenarioConfig (.hdrDefault 0) = false := by decide
theorem test_illformed_scenario : wellFormed defaultConfig (.hdrScenario 0) = false := by decide
theorem test_illformed_padded : wellFormed defaultConfig (.hdrPadded 0 0 0) = false := by decide
theorem test_illformed_align : wellFormed defaultConfig (.xAlign 0) = false := by decide
theorem test_illformed_len : wellFormed defaultConfig (.xLen 256) = false := by decide
theorem test_illformed_resync_valid : wellFormed m4 (.xResync 4) = false := by decide
theorem test_illformed_resync_wide : wellFormed m4 (.xResync 256) = false := by decide
theorem test_illformed_emit : wellFormed m4 (.xEmit [0xAA, 0x02, 0x10]) = false := by decide
theorem test_illformed_hunt_delim : wellFormed m4 (.bHuntDelim 0xAB) = false := by decide
theorem test_illformed_hunt_noise : wellFormed m4 (.bHuntNoise 0xAA) = false := by decide

/-! ### Decoding: words and events written out from the spec's encodings (30_encoding.md R71 to R74, R81, R82) -/

/-- R73: `10101010 LLLLLLLL`. -/
theorem test_decode_default : decode defaultConfig [] (.header [0b10101010, 0b00000101]) = .ok (.hdrDefault 5) := by decide
/-- R74: `01101001`, low byte, high byte. -/
theorem test_decode_scenario :
    decode scenarioConfig [] (.header [0b01101001, 0b00000100, 0b00000001]) = .ok (.hdrScenario 0x0104) := by decide
/-- R71 with configuration `P`: PAD at positions 1 and 3. -/
theorem test_decode_padded :
    decode paddedConfig [] (.header [0x7E, 0x99, 0x02, 0x88]) = .ok (.hdrPadded 0x99 0x02 0x88) := by decide
/-- R71 with configuration `W`: DELIM, four LEN bytes, PAD. -/
theorem test_decode_generic :
    decode wide [] (.header [0x7E, 0x2C, 0x01, 0x00, 0x00, 0x55]) =
      .ok (.hdrGeneric 0x7E [] [0x2C, 0x01, 0x00, 0x00] [0x55]) := by decide
theorem test_decode_header_without_delimiter :
    decode defaultConfig [] (.header [0xAB, 0x05]) = .error .noDelimiter := by decide
theorem test_decode_header_too_short : decode scenarioConfig [] (.header [0x69, 0x04]) = .error .headerLength := by decide
/-- R81: the CMD rows are selected by the driver's event. -/
theorem test_decode_commands :
    decode defaultConfig [] (.cfg {}) = .ok (.configure {}) ∧ decode defaultConfig [] .ctlReset = .ok .reset ∧
    decode defaultConfig [] .ctlEnd = .ok .endStream ∧ decode defaultConfig [] (.inByte 7) = .ok (.push 7) ∧
    decode defaultConfig [] (.inChunk [7, 8]) = .ok (.feed [7, 8]) ∧
    decode defaultConfig [] (.call [1]) = .ok (.encode [1]) := by decide
/-- R81: the STEP rows are selected by the content of `buf`. -/
theorem test_decode_steps :
    decode m4 [] .run = .ok .extract ∧ decode m4 [0x55, 0x66] .select = .ok .xScan ∧
    decode m4 [0x55, 0xAA] .select = .ok (.xAlign 1) ∧ decode m4 [0xAA] .select = .ok .xHwait ∧
    decode m4 [0xAA, 0x05] .select = .ok (.xLen 5) ∧ decode m4 [0xAA, 0x05] .afterLen = .ok (.xResync 5) ∧
    decode m4 [0xAA, 0x04] .afterLen = .ok .xBwait ∧
    decode m4 [0xAA, 0x01, 0x09, 0xAA] .afterLen = .ok (.xEmit [0xAA, 0x01, 0x09]) := by decide
theorem test_decode_step_refused :
    decode m4 [] .select = .error .nothingBuffered ∧ decode m4 [0xAA] .afterLen = .error .noLengthRead := by decide
/-- R82: the BYTE rows, by phase, `select`, mask and match. -/
theorem test_decode_bytes :
    decode paddedConfig [] (.serial 0x7E) = .ok (.bHuntDelim 0x7E) ∧
    decode paddedConfig [] (.serial 0x10) = .ok (.bHuntNoise 0x10) ∧
    decode paddedConfig [0x7E] (.serial 0x7E) = .ok (.bHeaderAcc 0x7E) ∧
    decode paddedConfig [0x7E, 0x7E] (.serial 0x11) = .ok (.bHeaderLast 0x11) ∧
    decode paddedConfig [0x7E, 0x01, 0x01] (.serial 0x03) = .ok (.bBodyAcc 0x03) ∧
    decode paddedConfig [0x7E, 0x01, 0x01, 0x03] (.serial 0xAB) = .ok (.bBodyLast 0xAB) := by decide
theorem test_decode_byte_not_quiescent : decode m4 [0x55] (.serial 0xAA) = .error .notQuiescent := by decide
theorem test_decode_not_admitted : decode ⟨0xAA, 2, 1, 0, 255⟩ [] (.serial 0xAA) = .error .notAdmitted := by decide
theorem test_fetched_word_runs :
    goesTo (step (State.reset.withFetchWord 16 0xAA05))
      (fun t => t.buf == [0xAA, 0x05] && t.pending == [] && t.out == []) = true := by decide

/-! ### The header rows -/

/-- V28, its first four bytes: in BODY with two payload bytes and no PAD to come. -/
theorem test_hdrPadded : goesTo (exec (.hdrPadded 0x99 0x02 0x88) (holding paddedConfig []))
    (fun t => t.buf == [0x7E, 0x99, 0x02, 0x88] && needOf t.cfg t.buf == some 2) = true := by decide
/-- V19. -/
theorem test_hdrDefault : goesTo (exec (.hdrDefault 0) State.reset)
    (fun t => t.buf == [] && t.out == [[0xAA, 0x00]]) = true := by decide
/-- V27, its first three bytes. -/
theorem test_hdrScenario : goesTo (exec (.hdrScenario 0x0100) (holding scenarioConfig []))
    (fun t => t.buf == [] && t.diag == [.resync 256]) = true := by decide
/-- V30, its first five bytes and a PAD byte. -/
theorem test_hdrGeneric : goesTo (exec (.hdrGeneric 0x7E [] [0, 0, 0, 1] [0]) (holding wide []))
    (fun t => t.buf == [] && t.diag == [.resync 16777216]) = true := by decide

/-! ### Configuration (R106) -/

/-- V8. -/
theorem test_configure_wide :
    goesTo (exec (.configure ⟨some 0x7E, some 6, some 4, some 1, some 1000⟩) (holding m4 [0xAA]))
      (fun t => t.cfg == wide && t.buf == [] && t.result == .created) = true := by decide
/-- V6: both checks fail, the first cause is reported. -/
theorem test_configure_first_cause :
    goesTo (exec (.configure { lengthBytes := some 0, packetOverhead := some 0 }) (holding m4 [0xAA]))
      (fun t => t == { holding m4 [0xAA] with result := .raised (.configError .lengthBytesRange) }) = true := by decide
/-- V4: defaults before validation. -/
theorem test_configure_field_exceeds_header :
    goesTo (exec (.configure { lengthBytes := some 2 }) State.reset)
      (fun t => t.result == .raised (.configError .fieldExceedsHeader)) = true := by decide
/-- V7. -/
theorem test_configure_not_admitted :
    refuses (exec (.configure { lengthOffset := some 0 }) State.reset) .notAdmitted = true := by decide

/-! ### Host operations -/

/-- V11. -/
theorem test_reset : goesTo (exec .reset (holding defaultConfig [0xAA, 0x05, 0x01, 0x02]))
    (fun t => t == { State.reset with result := .packets [] }) = true := by decide
/-- V16. -/
theorem test_end : goesTo (exec .endStream (holding defaultConfig [0xAA, 0x05, 0x01, 0x02]))
    (fun t => t.buf == [] && t.out == []) = true := by decide
/-- V15, its second line. -/
theorem test_push : goesTo (exec (.push 0x7F) (holding defaultConfig [0xAA, 0x01]))
    (fun t => t.buf == [] && t.out == [[0xAA, 0x01, 0x7F]] && t.result == .packets [[0xAA, 0x01, 0x7F]]) = true := by
  decide
/-- V24. -/
theorem test_feed : goesTo (exec (.feed [0x10, 0x20, 0xAA, 0xFF, 0xAA, 0x02, 0x31, 0x32]) (holding m4 []))
    (fun t => t.buf == [] && t.out == [[0xAA, 0x02, 0x31, 0x32]] && t.diag == [.resync 255]) = true := by decide
/-- V42: the rejected header's PAD byte is the delimiter, and nothing is emitted. -/
theorem test_feed_false_candidate :
    goesTo (exec (.feed [0x01, 0x02, 0xAA, 0xAA, 0xF0, 0xAA, 0x00, 0x01, 0x55]) (holding ⟨0xAA, 3, 1, 2, 200⟩ []))
      (fun t => t.buf == [0xAA, 0xF0, 0xAA, 0x00, 0x01, 0x55] && t.out == [] && t.diag == [.resync 240]) = true := by
  decide

/-! ### The encoder -/

/-- V36. -/
theorem test_encode : goesTo (exec (.encode [0x00, 0x01, 0x02]) (holding wide []))
    (fun t => t.result == .frame [0x7E, 0x03, 0x00, 0x00, 0x00, 0x00, 0x00, 0x01, 0x02]) = true := by decide
/-- V38f. -/
theorem test_encode_exceeds : goesTo (exec (.encode [1, 2, 3, 4, 5]) (holding m4 [0xAA]))
    (fun t => t == { holding m4 [0xAA] with result := .raised (.encodeRangeError .lengthExceedsMaxLen) }) = true := by
  decide

/-! ### Extraction steps: R120's example, one step at a time, and the steps that are not selected -/

theorem test_extract : goesTo (exec .extract (holding m4 [0x10, 0x20, 0xAA, 0xFF, 0xAA, 0x02, 0x31, 0x32]))
    (fun t => t.buf == [] && t.result == .extracted [[0xAA, 0x02, 0x31, 0x32]] [.resync 255] && t.out == []) = true := by
  decide
theorem test_xScan : goesTo (exec .xScan (holding m4 [0x55, 0x66, 0x77])) (fun t => t.buf == []) = true := by decide
theorem test_xScan_not_selected : refuses (exec .xScan (holding m4 [0x55, 0xAA])) .notSelected = true := by decide
theorem test_xAlign : goesTo (exec (.xAlign 2) (holding m4 [0x10, 0x20, 0xAA, 0xFF])) (fun t => t.buf == [0xAA, 0xFF]) = true := by
  decide
theorem test_xAlign_not_selected : refuses (exec (.xAlign 1) (holding m4 [0x10, 0x20, 0xAA])) .notSelected = true := by decide
theorem test_xHwait : goesTo (exec .xHwait (holding scenarioConfig [0x69, 0x04])) (fun t => t == holding scenarioConfig [0x69, 0x04]) = true := by
  decide
theorem test_xHwait_not_selected : refuses (exec .xHwait (holding m4 [0xAA, 0x04])) .notSelected = true := by decide
/-- R124's example. -/
theorem test_xLen : goesTo (exec (.xLen 4) (holding scenarioConfig [0x69, 0x04, 0x00, 0x74])) (fun t => t.buf.length == 4) = true := by
  decide
theorem test_xLen_not_selected : refuses (exec (.xLen 0x0400) (holding scenarioConfig [0x69, 0x04, 0x00])) .notSelected = true := by
  decide
theorem test_xResync : goesTo (exec (.xResync 0xAA) (holding m4 [0xAA, 0xAA, 0x01, 0x55]))
    (fun t => t.buf == [0xAA, 0x01, 0x55] && t.diag == [.resync 170]) = true := by decide
theorem test_xResync_not_selected : refuses (exec (.xResync 4) (holding m4 [0xAA, 0x04])) .notSelected = true := by decide
theorem test_xBwait : goesTo (exec .xBwait (holding m4 [0xAA, 0x04])) (fun t => t == holding m4 [0xAA, 0x04]) = true := by decide
theorem test_xBwait_not_selected : refuses (exec .xBwait (holding m4 [0xAA, 0x01, 0x09])) .notSelected = true := by decide
theorem test_xEmit : goesTo (exec (.xEmit [0xAA, 0x01, 0x09]) (holding m4 [0xAA, 0x01, 0x09, 0xAA]))
    (fun t => t.buf == [0xAA] && t.out == [[0xAA, 0x01, 0x09]]) = true := by decide
theorem test_xEmit_not_selected : refuses (exec (.xEmit [0xAA, 0x01]) (holding m4 [0xAA, 0x01, 0x09])) .notSelected = true := by
  decide

/-! ### The per-byte automaton: V39 and V40, transition by transition -/

theorem test_bHuntDelim : goesTo (exec (.bHuntDelim 0xAA) (holding m4 [])) (fun t => t.buf == [0xAA]) = true := by decide
theorem test_bHuntNoise : goesTo (exec (.bHuntNoise 0x10) (holding m4 [])) (fun t => t.buf == []) = true := by decide
theorem test_bHuntNoise_not_selected : refuses (exec (.bHuntNoise 0xAA) (holding m4 [])) .notSelected = true := by decide
theorem test_bHeaderAcc : goesTo (exec (.bHeaderAcc 0x7E) (holding paddedConfig [0x7E])) (fun t => t.buf == [0x7E, 0x7E]) = true := by
  decide
theorem test_bHeaderLast_reject : goesTo (exec (.bHeaderLast 0x7E) (holding paddedConfig [0x7E, 0x11]))
    (fun t => t.buf == [0x7E] && t.diag == [.resync 126]) = true := by decide
theorem test_bHeaderLast_bare_frame : goesTo (exec (.bHeaderLast 0x00) (holding m4 [0xAA]))
    (fun t => t.buf == [] && t.out == [[0xAA, 0x00]]) = true := by decide
theorem test_bBodyAcc : goesTo (exec (.bBodyAcc 0x03) (holding paddedConfig [0x7E, 0x01, 0x02]))
    (fun t => t.buf == [0x7E, 0x01, 0x02, 0x03]) = true := by decide
theorem test_bBodyLast : goesTo (exec (.bBodyLast 0x55) (holding m4 [0xAA, 0x01]))
    (fun t => t.buf == [] && t.out == [[0xAA, 0x01, 0x55]]) = true := by decide


/-! ### For every obligation with hypotheses, a state and operands that meet them -/

/-- The fields at both ends of the range of `lengthBytes`; `c` is what the statement's equation makes of the record. -/
theorem witness_ConfigureCreatesFreshInstance :
    (1 ≤ (fillDefaults {}).lengthBytes ∧ (fillDefaults {}).lengthBytes ≤ 4 ∧ 1 ≤ (fillDefaults {}).lengthOffset ∧
      (fillDefaults {}).lengthOffset + (fillDefaults {}).lengthBytes ≤ (fillDefaults {}).packetOverhead) ∧
    fillDefaults { lengthBytes := some 4, packetOverhead := some 5 } = ⟨0xAA, 5, 4, 1, 255⟩ ∧ 1 + 4 ≤ 5 := by decide

/-- One record per clause: 0 and 5 bytes of length, a field one byte past the header, and the defaults. -/
theorem witness_ConfigureReportsFirstFailedCheck :
    (0 < 1 ∧ fillDefaults { lengthBytes := some 0 } = ⟨0xAA, 2, 0, 1, 255⟩) ∧
    (4 < 5 ∧ fillDefaults { lengthBytes := some 5 } = ⟨0xAA, 2, 5, 1, 255⟩) ∧
    (fillDefaults { lengthBytes := some 2 } = ⟨0xAA, 2, 2, 1, 255⟩ ∧ 2 < 1 + 2) ∧
    (fillDefaults {} = ⟨0xAA, 2, 1, 1, 255⟩ ∧ 1 + 1 ≤ 2 ∧
      ∃ t, exec (.configure {}) State.reset = .next t) := ⟨by decide, by decide, by decide, by decide, by decide, _, rfl⟩

theorem witness_UnadmittedConfigurationHasNoStep :
    admitted ⟨0xAA, 2, 1, 1, 255⟩ = true ∧
    (1 ≤ (({ lengthOffset := some 0 } : Options).lengthBytes.getD 1) ∧
      ({ lengthOffset := some 0 } : Options).lengthBytes.getD 1 ≤ ({ lengthOffset := some 0 } : Options).packetOverhead.getD 2) ∧
    ((∀ o, Instr.reset ≠ .configure o) ∧ admitted (holding ⟨0xAA, 2, 1, 0, 255⟩ []).cfg = false) := ⟨by decide, by decide, (fun _ h => by cases h), by decide⟩

theorem witness_ConfigurationNeverChanges :
    (∃ t, exec (.push 0xAA) State.reset = .next t ∧ ∀ o, Instr.push 0xAA ≠ .configure o) ∧
    ∃ t, exec (.configure { lengthBytes := some 5 }) State.reset = .next t ∧ t.result ≠ .created := ⟨⟨_, rfl, fun _ h => by cases h⟩, _, rfl, by decide⟩

theorem witness_ResetAndEndEmptyAccumulator :
    admitted (holding m4 [0xAA, 0x03]).cfg = true := by decide

theorem witness_PushRunsExtraction :
    admitted (holding m4 [0xAA, 0x03]).cfg = true := by decide

theorem witness_FeedRunsExtraction :
    admitted (holding m4 [0xAA, 0x03]).cfg = true := by decide

theorem witness_ExtractWritesBufferAndReturns :
    admitted (holding m4 [0xAA, 0x03]).cfg = true := by decide

theorem witness_ExtractIsARunOfSteps :
    admitted (holding m4 [0xAA, 0x03]).cfg = true := by decide

theorem witness_EveryByteHasOneFate :
    admitted (holding m4 [0xAA, 0x03]).cfg = true := by decide

theorem witness_EmptyFeedIsNoOperation :
    (holding m4 [0xAA, 0x04]).Quiescent := by decide

theorem witness_DeliveryIsExactAndWhole :
    admitted (holding m4 [0xAA, 0x00]).cfg = true ∧ (∃ b, Instr.push 0x09 = .push b) ∧
    (∃ chunk, Instr.feed [0xAA, 0x00] = .feed chunk) := ⟨by decide, ⟨_, rfl⟩, _, rfl⟩

/-- One buffer per branch; the lengths 5 and 4 stand on both sides of `maxLen = 4`, five and six bytes on both sides of the frame's end. -/
theorem witness_ExtractFollowsDecisionTree :
    admitted m4 = true ∧ m4.delimiter ∉ ([0x55, 0x66] : Bytes) ∧
    ((0 < 1) ∧ ([0x55, 0xAA] : Bytes)[1]? = some m4.delimiter ∧ m4.delimiter ∉ ([0x55, 0xAA] : Bytes).take 1) ∧
    (([0xAA] : Bytes).head? = some m4.delimiter ∧ ([0xAA] : Bytes).length < headerNeed m4) ∧
    (headerNeed m4 ≤ ([0xAA, 0x05] : Bytes).length ∧ m4.maxLen < lengthFieldSum m4 [0xAA, 0x05]) ∧
    (lengthFieldSum m4 [0xAA, 0x04, 1, 2, 3] ≤ m4.maxLen ∧
      ([0xAA, 0x04, 1, 2, 3] : Bytes).length < m4.packetOverhead + lengthFieldSum m4 [0xAA, 0x04, 1, 2, 3]) ∧
    (lengthFieldSum m4 [0xAA, 0x04, 1, 2, 3, 4] ≤ m4.maxLen ∧
      m4.packetOverhead + lengthFieldSum m4 [0xAA, 0x04, 1, 2, 3, 4] ≤ ([0xAA, 0x04, 1, 2, 3, 4] : Bytes).length) := by decide

theorem witness_ScanDiscardsAll :
    admitted m4 = true ∧ (holding m4 [0x55]).buf ≠ [] ∧ m4.delimiter ∉ (holding m4 [0x55]).buf := by decide

theorem witness_AlignDiscardsNoise :
    admitted m4 = true ∧ 0 < 1 ∧ (holding m4 [0x55, 0xAA]).buf[1]? = some m4.delimiter ∧
    m4.delimiter ∉ (holding m4 [0x55, 0xAA]).buf.take 1 := by decide

theorem witness_HeaderWaitWritesNothing :
    admitted m4 = true ∧ (holding m4 [0xAA]).buf.head? = some m4.delimiter ∧ (holding m4 [0xAA]).buf.length < headerNeed m4 := by decide

theorem witness_LengthReadIsWeightedSum :
    admitted m4 = true ∧ (holding m4 [0xAA, 0xFF]).buf.head? = some m4.delimiter ∧
    headerNeed m4 ≤ (holding m4 [0xAA, 0xFF]).buf.length := by decide

theorem witness_ResyncDropsOneByte :
    admitted m4 = true ∧ (holding m4 [0xAA, 0x05]).buf.head? = some m4.delimiter ∧
    headerNeed m4 ≤ (holding m4 [0xAA, 0x05]).buf.length ∧ m4.maxLen < lengthFieldSum m4 [0xAA, 0x05] := by decide

theorem witness_BodyWaitWritesNothing :
    admitted m4 = true ∧ (holding m4 [0xAA, 0x01]).buf.head? = some m4.delimiter ∧
    headerNeed m4 ≤ (holding m4 [0xAA, 0x01]).buf.length ∧ lengthFieldSum m4 [0xAA, 0x01] ≤ m4.maxLen ∧
    (holding m4 [0xAA, 0x01]).buf.length < m4.packetOverhead + lengthFieldSum m4 [0xAA, 0x01] := by decide

theorem witness_EmitDeliversWholeFrame :
    admitted m4 = true ∧ (holding m4 [0xAA, 0x00]).buf.head? = some m4.delimiter ∧
    headerNeed m4 ≤ (holding m4 [0xAA, 0x00]).buf.length ∧ lengthFieldSum m4 [0xAA, 0x00] ≤ m4.maxLen ∧
    2 = m4.packetOverhead + lengthFieldSum m4 [0xAA, 0x00] ∧ 2 ≤ (holding m4 [0xAA, 0x00]).buf.length := by decide

theorem witness_OperationsStopWhereNotSelected :
    admitted m4 = true ∧ ¬ ((holding m4 []).buf ≠ [] ∧ m4.delimiter ∉ (holding m4 []).buf) ∧
    ¬ (0 < 0 ∧ ([0xAA] : Bytes)[0]? = some m4.delimiter) ∧ ¬ ([0xAA, 0x05] : Bytes).length < headerNeed m4 ∧
    ¬ 4 = lengthFieldSum m4 [0xAA, 0x05] ∧ ¬ m4.maxLen < 4 ∧
    ¬ lengthFieldSum m4 [0xAA, 0x05] ≤ m4.maxLen ∧
    ¬ m4.packetOverhead + lengthFieldSum m4 [0xAA, 0x01] ≤ ([0xAA, 0x01] : Bytes).length ∧
    ¬ (holding m4 [0xAA]).buf = [] ∧ ¬ phaseOf m4 [0x55] = some .header ∧ ¬ ([0xAA] : Bytes).length + 1 < headerNeed m4 ∧
    ¬ ([0x7E] : Bytes).length + 1 = headerNeed paddedConfig ∧ latchedLength m4 [0xAA] = none := by decide

theorem witness_ExtractTerminates :
    (∃ t, exec .xScan (holding m4 [0x55]) = .next t) ∧ (∃ t, exec (.xAlign 1) (holding m4 [0x55, 0xAA]) = .next t) ∧
    (∃ t, exec (.xResync 5) (holding m4 [0xAA, 0x05]) = .next t) ∧
    (∃ t, exec (.xEmit [0xAA, 0x00]) (holding m4 [0xAA, 0x00]) = .next t) ∧
    (admitted m4 = true ∧ ∃ t u, exec .extract (holding m4 [0x55, 0xAA]) = .next t ∧ exec .xHwait t = .next u ∧
      Instr.xHwait.format = .step) := ⟨⟨_, rfl⟩, ⟨_, rfl⟩, ⟨_, rfl⟩, ⟨_, rfl⟩, by decide, _, _, rfl, rfl, rfl⟩

theorem witness_ExtractReachesNormalForm :
    admitted m4 = true ∧ normalForm m4 [0xAA, 0x04] = true := by decide

theorem witness_ChunkBoundariesAreInvisible :
    (holding m4 [0xAA]).Quiescent := by decide

theorem witness_PushEmitsAtMostOneThing :
    ((holding paddedConfig [0x7E]).Quiescent ∧ (holding paddedConfig [0x7E]).buf.length + 1 < headerNeed paddedConfig) ∧
    ((holding m4 [0xAA]).Quiescent ∧ (holding m4 [0xAA]).buf.length + 1 = headerNeed m4) ∧
    ((holding m4 [0xAA, 0x01]).Quiescent ∧ headerNeed m4 ≤ (holding m4 [0xAA, 0x01]).buf.length) := by decide

theorem witness_RoundTrip :
    admitted m4 = true ∧ (holding m4 []).buf = [] ∧ ([1, 2, 3, 4] : Bytes).length ≤ m4.maxLen ∧
    ([1, 2, 3, 4] : Bytes).length ≤ 2 ^ (8 * m4.lengthBytes) - 1 ∧ [[0xAA, 4], [1, 2, 3, 4]].flatten = ([0xAA, 4, 1, 2, 3, 4] : Bytes) := by decide

theorem witness_ConcatenatedFrames :
    admitted m4 = true ∧ (holding m4 []).buf = [] ∧
    ∀ pl ∈ ([[1, 2], [], [1, 2, 3, 4]] : List Bytes), pl.length ≤ m4.maxLen ∧ pl.length ≤ 2 ^ (8 * m4.lengthBytes) - 1 := by decide

/-- V41. -/
theorem witness_ResynchronizationFindsValidFrame :
    admitted ⟨0xAA, 3, 1, 2, 200⟩ = true ∧ 0xAA ∉ ([0x01, 0x02] : Bytes) ∧
    ([0xAA, 0x00, 0xF0] : Bytes).length = headerNeed ⟨0xAA, 3, 1, 2, 200⟩ ∧ 0xAA ∉ ([0xAA, 0x00, 0xF0] : Bytes).tail ∧
    200 < lengthFieldSum ⟨0xAA, 3, 1, 2, 200⟩ [0xAA, 0x00, 0xF0] ∧
    headerNeed ⟨0xAA, 3, 1, 2, 200⟩ ≤ ([0xAA, 0x00, 0x01, 0x55] : Bytes).length ∧
    lengthFieldSum ⟨0xAA, 3, 1, 2, 200⟩ [0xAA, 0x00, 0x01, 0x55] ≤ 200 ∧
    ([0xAA, 0x00, 0x01, 0x55] : Bytes).length = 3 + lengthFieldSum ⟨0xAA, 3, 1, 2, 200⟩ [0xAA, 0x00, 0x01, 0x55] := by decide

/-- doc00's scenario frame, cut inside its length field. -/
theorem witness_PartialHeaderIsCompletedLater :
    admitted scenarioConfig = true ∧ ([0x69, 0x04] : Bytes).head? = some scenarioConfig.delimiter ∧
    ([0x69, 0x04] : Bytes).length < headerNeed scenarioConfig ∧
    headerNeed scenarioConfig ≤ (([0x69, 0x04] : Bytes) ++ [0x00, 0x74, 0x65, 0x73, 0x74]).length ∧
    lengthFieldSum scenarioConfig (([0x69, 0x04] : Bytes) ++ [0x00, 0x74, 0x65, 0x73, 0x74]) ≤ scenarioConfig.maxLen ∧
    (([0x69, 0x04] : Bytes) ++ [0x00, 0x74, 0x65, 0x73, 0x74]).length =
      scenarioConfig.packetOverhead + lengthFieldSum scenarioConfig (([0x69, 0x04] : Bytes) ++ [0x00, 0x74, 0x65, 0x73, 0x74]) := by decide

/-- V31 for the second clause. -/
theorem witness_EffectiveMaximumLength :
    (admitted defaultConfig = true ∧ 2 ^ (8 * defaultConfig.lengthBytes) - 1 ≤ defaultConfig.maxLen) ∧
    (admitted zeroMax = true ∧ zeroMax.maxLen = 0 ∧ (extract zeroMax [0xAA, 0x01, 0xAA, 0x00]).packets = [[0xAA, 0x00]]) := by decide

theorem witness_QuiescentAccumulatorHasOneOfThreeShapes :
    admitted m4 = true ∧ (∃ t, exec .reset (holding m4 [0xAA]) = .next t) ∧
    ∃ t, exec (.configure {}) (holding m4 [0x55]) = .next t ∧ ∀ cause, t.result ≠ .raised (.configError cause) := ⟨by decide, ⟨_, rfl⟩, _, rfl, fun _ h => by cases h⟩

/-- The second buffer holds `CAP - 1` bytes. -/
theorem witness_OccupancyIsBounded :
    admitted m4 = true ∧ normalForm m4 [0xAA] = true ∧ phaseOf m4 [0xAA] = some .header ∧
    normalForm m4 [0xAA, 0x04, 1, 2, 3] = true := by decide

theorem witness_DerivedRegisters :
    admitted paddedConfig = true ∧ normalForm paddedConfig [] = true ∧
    (normalForm paddedConfig [0x7E] = true ∧ ([0x7E] : Bytes).length < headerNeed paddedConfig) ∧
    normalForm paddedConfig [0x7E, 0x7E] = true ∧
    (normalForm paddedConfig [0x7E, 0, 0x10] = true ∧ headerNeed paddedConfig ≤ ([0x7E, 0, 0x10] : Bytes).length) := by decide

theorem witness_TracesAreAppendOnly :
    ∃ t, exec (.push 0x00) (holding m4 [0xAA]) = .next t := ⟨_, rfl⟩

theorem witness_NothingDependsOnDiagnostics :
    ∃ t, exec (.push 0x05) (holding m4 [0xAA]) = .next t ∧ t.diag = [.resync 5] := ⟨_, rfl, by decide⟩

/-- Four bytes that end with the buffer, and four that reach one byte past it. -/
theorem witness_MemoryPrimitives :
    (1 ≤ 4 ∧ 4 ≤ 4 ∧ 1 + 4 ≤ ([0x7E, 0, 0, 0, 1] : Bytes).length) ∧ ([0x7E, 0, 0, 0, 1] : Bytes).length < 2 + 4 ∧
    1 ≠ ([0x7E, 0, 0, 0, 1] : Bytes).length := by decide

theorem witness_LittleEndianInverse :
    65535 < 2 ^ (8 * 2) := by decide

theorem witness_HuntTransitions :
    admitted m4 = true ∧ (holding m4 []).buf = [] ∧ (0x10 : Byte) ≠ m4.delimiter ∧ (0xAA : Byte) = m4.delimiter := by decide

theorem witness_HeaderByteAccumulates :
    (holding paddedConfig [0x7E]).Quiescent ∧ phaseOf paddedConfig (holding paddedConfig [0x7E]).buf = some .header ∧
    (holding paddedConfig [0x7E]).buf.length + 1 < headerNeed paddedConfig := by decide

/-- One byte per outcome: reject without and with a delimiter behind, a bare frame, and the largest valid length. -/
theorem witness_LastHeaderByteJudgesLength :
    ((holding paddedConfig [0x7E, 0x11]).Quiescent ∧ phaseOf paddedConfig [0x7E, 0x11] = some .header ∧
      2 + 1 = headerNeed paddedConfig ∧ 17 = lengthFieldSum paddedConfig ([0x7E, 0x11] ++ [0x11]) ∧ 16 < 17 ∧
      paddedConfig.delimiter ∉ ([0x7E, 0x11] : Bytes).tail ++ [0x11]) ∧
    (126 = lengthFieldSum paddedConfig ([0x7E, 0x11] ++ [0x7E]) ∧ 16 < 126 ∧
      (([0x7E, 0x11] : Bytes).tail ++ [0x7E])[1]? = some paddedConfig.delimiter ∧
      paddedConfig.delimiter ∉ (([0x7E, 0x11] : Bytes).tail ++ [0x7E]).take 1) ∧
    ((holding m4 [0xAA]).Quiescent ∧ phaseOf m4 [0xAA] = some .header ∧ 1 + 1 = headerNeed m4 ∧
      0 = lengthFieldSum m4 ([0xAA] ++ [0x00]) ∧ headerNeed m4 = m4.packetOverhead) ∧
    (16 = lengthFieldSum paddedConfig ([0x7E, 0x11] ++ [0x10]) ∧ headerNeed paddedConfig ≠ paddedConfig.packetOverhead) := by decide

theorem witness_BodyByteAccumulates :
    (holding m4 [0xAA, 0x02]).Quiescent ∧ latchedLength m4 [0xAA, 0x02] = some 2 ∧ 2 + 1 < m4.packetOverhead + 2 := by decide

theorem witness_LastBodyByteEmitsFrame :
    (holding m4 [0xAA, 0x02, 0x10]).Quiescent ∧ latchedLength m4 [0xAA, 0x02, 0x10] = some 2 ∧ 3 + 1 = m4.packetOverhead + 2 := by decide

theorem witness_ExactlyOneTransitionApplies :
    (holding m4 [0xAA]).Quiescent ∧ ∃ t, exec .reset (holding m4 [0xAA]) = .next t := ⟨by decide, _, rfl⟩

theorem witness_TransitionEqualsPush :
    (holding m4 [0xAA, 0x02, 0x10]).Quiescent := by decide

theorem witness_AutomatonEqualsLoop :
    admitted paddedConfig = true ∧ (holding paddedConfig []).buf = [] := by decide

theorem witness_EncodedFrameLayout :
    admitted m4 = true ∧ ([1, 2, 3, 4] : Bytes).length ≤ 2 ^ (8 * m4.lengthBytes) - 1 ∧ ([1, 2, 3, 4] : Bytes).length ≤ m4.maxLen := by decide

theorem witness_EncodeReportsFirstFailedCheck :
    admitted m4 = true ∧ 2 ^ (8 * m4.lengthBytes) - 1 < (List.replicate 256 (0 : Byte)).length ∧
    (([1, 2, 3, 4, 5] : Bytes).length ≤ 2 ^ (8 * m4.lengthBytes) - 1 ∧ m4.maxLen < ([1, 2, 3, 4, 5] : Bytes).length) := ⟨by decide, by rw [List.length_replicate]; decide, by decide⟩

/-- V35. -/
theorem witness_EncodedFrameIsAccepted :
    exec (.encode [0xDE, 0xAD]) (holding paddedConfig []) =
      .next { holding paddedConfig [] with result := .frame [0x7E, 0x00, 0x02, 0x00, 0xDE, 0xAD] } := rfl

theorem witness_HeaderRowsArriveAsTheirBytes :
    admitted (holding m4 [0xAA, 0x03]).cfg = true := by decide

/-- The lengths 0, 1000 and 1001, where `maxLen = 1000`. -/
theorem witness_GenericHeaderArrival :
    admitted wide = true ∧ (holding wide []).buf = [] ∧ ([] : Bytes).length + 1 = wide.lengthOffset ∧
    ([0xE8, 0x03, 0, 0] : Bytes).length = wide.lengthBytes ∧ headerNeed wide + ([0x55] : Bytes).length = wide.packetOverhead ∧
    le [0, 0, 0, 0] = 0 ∧ (0 < le [0xE8, 0x03, 0, 0] ∧ le [0xE8, 0x03, 0, 0] ≤ wide.maxLen) ∧ wide.maxLen < le [0xE9, 0x03, 0, 0] := by decide

theorem witness_DefaultHeaderArrival :
    State.reset.cfg = ⟨0xAA, 2, 1, 1, 255⟩ ∧ State.reset.buf = [] ∧ (0xFF : Byte) ≠ 0 := by decide

theorem witness_ScenarioHeaderArrival :
    (holding scenarioConfig []).cfg = ⟨0x69, 3, 2, 1, 255⟩ ∧ (holding scenarioConfig []).buf = [] ∧ (0xFF : Byte) ≠ 0 ∧ (0x01 : Byte) ≠ 0 := by decide

theorem witness_PaddedHeaderArrival :
    (holding paddedConfig []).cfg = ⟨0x7E, 4, 1, 2, 16⟩ ∧ (holding paddedConfig []).buf = [] ∧
    ((0x10 : Byte) ≠ 0 ∧ (0x10 : Byte).toNat ≤ 16) ∧ 16 < (0x11 : Byte).toNat := by decide

theorem witness_DecodeInvertsEncode :
    admitted m4 = true ∧ (wellFormed m4 (.xEmit [0xAA, 0x00]) = true ∧ selected m4 [0xAA, 0x00] (.xEmit [0xAA, 0x00]) = true) ∧
    decode m4 [0xAA] (.serial 0x05) = .ok (.bHeaderLast 0x05) := by decide

theorem witness_StepRunsDecodedOperation :
    (({ State.reset with pending := [.inByte 1] } : State).pending = .inByte 1 :: [] ∧
      decode State.reset.cfg State.reset.buf (.inByte 1) = .ok (.push 1)) ∧ State.reset.pending = [] ∧
    (({ State.reset with pending := [.select] } : State).pending = .select :: [] ∧
      decode State.reset.cfg State.reset.buf .select = .error .nothingBuffered) := by decide

theorem witness_DecodedOperationsComplete :
    admitted m4 = true ∧ decode m4 [0xAA] (.serial 0x05) = .ok (.bHeaderLast 0x05) ∧ ∀ o, Instr.bHeaderLast 0x05 ≠ .configure o := ⟨by decide, by decide, fun _ h => by cases h⟩

theorem witness_InvariantIsKept :
    ({ holding m4 [0xAA] with out := [[0xAA, 0x00]], diag := [.resync 5], pending := [.inByte 0x05] } : State).Inv ∧
    ∃ t, step { holding m4 [0xAA] with out := [[0xAA, 0x00]], diag := [.resync 5], pending := [.inByte 0x05] } = .next t := ⟨by decide, _, rfl⟩

end Sys2Proof.Tests
end

section
/-! PROOFS. The family of 00_scope.md: the little-endian notation and the primitives over the accumulator (R12, R13, R63). -/

namespace Sys2Proof.Machine

/-! ### `LE` and `LEbytes` (R12) -/

/-- The bound of R12, `k` bytes hold the values below `2^(8k)`, in the base in which `le` and `leBytes` count. -/
theorem two_pow_eight_mul (k : Nat) : 2 ^ (8 * k) = 256 ^ k := pow_mul 2 8 k

@[simp] theorem leBytes_zero (v : Nat) : leBytes 0 v = [] := rfl

/-- Log 16: what `k` bytes cannot hold of `v` is lost, and nothing else is. -/
theorem le_leBytes (k v : Nat) : le (leBytes k v) = v % 256 ^ k := by
  induction k generalizing v with
  | zero => simp [Nat.mod_one]
  | succ k ih =>
    calc le (leBytes (k + 1) v)
        = v % 256 + 256 * (v / 256 % 256 ^ k) := by rw [leBytes_succ, le_cons, ih, BitVec.toNat_ofNat]
      _ = v % (256 * 256 ^ k) := Nat.mod_mul.symm
      _ = v % 256 ^ (k + 1) := by rw [pow_succ']

theorem leBytes_le (s : Bytes) : leBytes s.length (le s) = s := by
  induction s with
  | nil => rfl
  | cons b s ih =>
    have hb := b.isLt
    have low : BitVec.ofNat 8 (b.toNat + 256 * le s) = b := by
      apply BitVec.eq_of_toNat_eq
      rw [BitVec.toNat_ofNat]
      omega
    have high : (b.toNat + 256 * le s) / 256 = le s := by omega
    rw [List.length_cons, le_cons, leBytes_succ, low, high, ih]

/-- Settles O38: reading back gives `v mod 256^k`, which is `v` where it fits, and writing back is an induction over
the bytes. -/
theorem littleEndianInverse : Obligations.LittleEndianInverse := by
  unfold Obligations.LittleEndianInverse
  refine ⟨fun k v hv => ?_, leBytes_le⟩
  rw [two_pow_eight_mul] at hv
  rw [le_leBytes, Nat.mod_eq_of_lt hv]

/-! ### MemRead and MemWrite (R13, R63) -/

theorem memRead_eq_sum {buf : Bytes} {addr k : Nat} (h1 : 1 ≤ k) (h4 : k ≤ 4) (hin : addr + k ≤ buf.length) :
    memRead buf addr k = some (∑ i ∈ Finset.range k, (buf.getD (addr + i) 0).toNat * 256 ^ i) :=
  (memRead_eq_some_iff buf addr k _).mpr ⟨hin, h1, h4, (le_slice_sum buf addr k hin).symm⟩

theorem memRead_past_end {buf : Bytes} {addr k : Nat} (h : buf.length < addr + k) : memRead buf addr k = none :=
  if_neg fun ⟨hin, _⟩ => hin.not_gt h

theorem memWrite_at_end (buf : Bytes) (k v : Nat) : memWrite buf buf.length k v = some (buf ++ leBytes k v) := if_pos rfl

theorem memWrite_elsewhere {buf : Bytes} {addr : Nat} (h : addr ≠ buf.length) (k v : Nat) :
    memWrite buf addr k v = none := if_neg h

/-- Settles O37: inside the buffer the slice that is read is the weighted sum, and what `k` bytes hold is below
`256^k`; the other clauses are the two sides of the domains of MemRead and MemWrite. -/
theorem memoryPrimitives : Obligations.MemoryPrimitives := by
  unfold Obligations.MemoryPrimitives
  intro buf addr k v
  refine ⟨fun h1 h4 hin => ?_, memRead_past_end, memWrite_at_end buf k v, fun h => memWrite_elsewhere h k v⟩
  have hread := memRead_eq_sum h1 h4 hin
  exact ⟨hread, two_pow_eight_mul k ▸ memRead_lt hread⟩

end Sys2Proof.Machine
end

section
/-! PROOFS. The family of 10_state.md: the accumulator at quiescence and its derived registers (R22, R23, R26, R28), the
two traces (R30, R31), and the invariant of a decoder (R22, R31, R102, R116). -/

namespace Sys2Proof.Machine

/-! ### The length field against `LREP` (R28) -/

/-- The length of a valid candidate is at most `LMAX`, whichever of `maxLen` and `LREP` is the smaller (R28). -/
theorem lengthAt_le_lmax {cfg : FrameConfig} {buf : Bytes} {l : Nat} (hl : lengthAt cfg buf = some l)
    (hm : l ≤ cfg.maxLen) : l ≤ lmax cfg := le_min hm (lengthAt_le_lrep hl)

/-- The length of a candidate is read from its first `H` bytes: cutting the buffer behind them changes nothing (R124). -/
theorem lengthAt_take {cfg : FrameConfig} (h : admitted cfg = true) {buf : Bytes} {l n : Nat}
    (hl : lengthAt cfg buf = some l) (hn : headerNeed cfg ≤ n) : lengthAt cfg (buf.take n) = some l := by
  have hbuf := ((lengthAt_eq_some_iff h buf l).mp hl).1
  have hcut := lengthAt_eq_lengthFieldSum h (buf := buf.take n) (by rw [List.length_take]; exact le_min hn hbuf)
  have hback := lengthAt_append h hcut (buf.drop n)
  rw [List.take_append_drop, hl] at hback
  rw [hcut, hback]

/-- Only the comparison with a length that the field can hold matters of `maxLen` (R28). -/
theorem choose_withMaxLen {cfg : FrameConfig} {m : Nat} (hm : ∀ l ≤ lrep cfg, m < l ↔ cfg.maxLen < l) (buf : Bytes) :
    choose { cfg with maxLen := m } buf = choose cfg buf := by
  have hl : lengthAt { cfg with maxLen := m } buf = lengthAt cfg buf := rfl
  unfold choose
  rw [hl]
  cases hv : lengthAt cfg buf with
  | none => rfl
  | some l => simp only [hm l (lengthAt_le_lrep hv)]

theorem extractLoop_withMaxLen {cfg : FrameConfig} {m : Nat} (hm : ∀ l ≤ lrep cfg, m < l ↔ cfg.maxLen < l)
    (passes : Nat) (buf : Bytes) : extractLoop { cfg with maxLen := m } passes buf = extractLoop cfg passes buf := by
  induction passes generalizing buf with
  | zero => rfl
  | succ passes ih => simp only [extractLoop, choose_withMaxLen hm, ih]

/-! ### What EXTRACT leaves, emits and reports (R116, R129, R31) -/

theorem isFrame_iff {cfg : FrameConfig} (f : Bytes) :
    isFrame cfg f = true ↔ f.head? = some cfg.delimiter ∧
      ∃ l, lengthAt cfg f = some l ∧ l ≤ cfg.maxLen ∧ f.length = cfg.packetOverhead + l := by
  unfold isFrame
  cases lengthAt cfg f <;> simp

/-- What X.EMIT takes from the front is a whole frame (R127). -/
theorem isFrame_take {cfg : FrameConfig} (h : admitted cfg = true) {buf : Bytes} {l : Nat}
    (hh : buf.head? = some cfg.delimiter) (hl : lengthAt cfg buf = some l) (hm : l ≤ cfg.maxLen)
    (hn : cfg.packetOverhead + l ≤ buf.length) : isFrame cfg (buf.take (cfg.packetOverhead + l)) = true := by
  have hpo := headerNeed_le_packetOverhead h
  have h2 := two_le_headerNeed h
  refine (isFrame_iff _).mpr ⟨?_, l, lengthAt_take h hl (by omega), hm, by simpa using hn⟩
  rw [List.head?_take, if_neg (by omega), hh]

/-- An accumulator in normal form is left as it is (R129). -/
theorem extract_of_normalForm {cfg : FrameConfig} (h : admitted cfg = true) {buf : Bytes}
    (hq : normalForm cfg buf = true) : extract cfg buf = ⟨buf, [], []⟩ := by
  rw [extract_unfold h]
  rcases (normalForm_iff_choose h buf).mp hq with hc | hc | ⟨l, hc⟩ <;> rw [hc]

/-- What the invariant asks of an extraction: the normal form left, whole frames, lengths in `(maxLen, LREP]`. -/
structure Extraction.Sound (cfg : FrameConfig) (e : Extraction) : Prop where
  normal : normalForm cfg e.buf = true
  frames : e.packets.all (isFrame cfg) = true
  legal : e.events.all (legalEvent cfg) = true

/-- An induction over the passes of R120, each of which shortens the accumulator (R128). -/
theorem extract_sound {cfg : FrameConfig} (h : admitted cfg = true) (buf : Bytes) : (extract cfg buf).Sound cfg := by
  have hpo : 2 ≤ cfg.packetOverhead := (two_le_headerNeed h).trans (headerNeed_le_packetOverhead h)
  have stop (hq : normalForm cfg buf = true) : (extract cfg buf).Sound cfg := by
    rw [extract_of_normalForm h hq]
    exact ⟨hq, rfl, rfl⟩
  rcases choose_cases cfg buf with ⟨-, hc⟩ | ⟨-, -, hc⟩ | ⟨p, hp, hf, hc⟩ |
      ⟨hh, ⟨-, hc⟩ | ⟨l, hl, ⟨hm, hc⟩ | ⟨-, -, hc⟩ | ⟨hm, hn, hc⟩⟩⟩
  · exact stop ((normalForm_iff_choose h buf).mpr (.inl hc))
  · rw [extract_unfold h, hc]
    exact ⟨rfl, rfl, rfl⟩
  · have hlt := find_lt hf
    rw [extract_unfold h, hc]
    exact extract_sound h (buf.drop p)
  · exact stop ((normalForm_iff_choose h buf).mpr (.inr (.inl hc)))
  · have hn := ((lengthAt_eq_some_iff h buf l).mp hl).1
    have h2 := two_le_headerNeed h
    obtain ⟨hbuf, hpackets, hevents⟩ := extract_sound h (buf.drop 1)
    rw [extract_unfold h, hc]
    exact ⟨hbuf, hpackets, by simpa [legalEvent, hm, lengthAt_le_lrep hl] using hevents⟩
  · exact stop ((normalForm_iff_choose h buf).mpr (.inr (.inr ⟨l, hc⟩)))
  · obtain ⟨hbuf, hpackets, hevents⟩ := extract_sound h (buf.drop (cfg.packetOverhead + l))
    rw [extract_unfold h, hc]
    exact ⟨hbuf, by simpa [isFrame_take h hh hl hm hn] using hpackets, hevents⟩
termination_by buf.length
decreasing_by all_goals (simp only [List.length_drop]; omega)

/-- Settles O31: an event carries a length above `maxLen` and at most `LREP`, a packet a length of at most `maxLen`, and
the loop compares `maxLen` with no length above `LREP`. -/
theorem effectiveMaximumLength : Obligations.EffectiveMaximumLength := by
  unfold Obligations.EffectiveMaximumLength
  intro c buf h
  obtain ⟨-, hpackets, hevents⟩ := extract_sound h buf
  refine ⟨fun hrep => ?_, fun hzero f hf => ?_, ?_⟩
  · refine List.eq_nil_iff_forall_not_mem.mpr fun ⟨l⟩ he => ?_
    have hlegal := List.all_eq_true.mp hevents _ he
    obtain ⟨habove, hle⟩ : c.maxLen < l ∧ l ≤ lrep c := by simpa [legalEvent] using hlegal
    exact habove.not_ge (hle.trans hrep)
  · obtain ⟨-, l, -, hm, hlen⟩ := (isFrame_iff f).mp (List.all_eq_true.mp hpackets f hf)
    omega
  · exact extractLoop_withMaxLen (fun l hl => by unfold lrep at hl; omega) _ _

/-! ### The shapes of a quiescent accumulator and its registers (R22, R23, R26) -/

/-- R22 with the length field written as the weighted sum of R72. -/
theorem normalForm_iff_shapes {cfg : FrameConfig} (h : admitted cfg = true) (buf : Bytes) :
    normalForm cfg buf = true ↔
      buf = [] ∨
      (1 ≤ buf.length ∧ buf.head? = some cfg.delimiter ∧ buf.length < headerNeed cfg) ∨
      (headerNeed cfg ≤ buf.length ∧ buf.head? = some cfg.delimiter ∧ lengthFieldSum cfg buf ≤ cfg.maxLen ∧
        buf.length < cfg.packetOverhead + lengthFieldSum cfg buf) := by
  rw [normalForm_iff h]
  rcases Nat.lt_or_ge buf.length (headerNeed cfg) with hlt | hge
  · have hpos : buf.head? = some cfg.delimiter → 1 ≤ buf.length := by cases buf <;> simp
    simp only [(lengthAt_eq_none_iff h buf).mpr hlt, hlt, Nat.not_le.mpr hlt]
    simp
    tauto
  · simp only [lengthAt_eq_lengthFieldSum h hge, hge, Nat.not_lt.mpr hge]
    simp

/-- What holds of a quiescent accumulator that has read its length: the frame is not complete (R22 (c)). -/
theorem normalForm_body {cfg : FrameConfig} (h : admitted cfg = true) {buf : Bytes} (hq : normalForm cfg buf = true)
    (hn : headerNeed cfg ≤ buf.length) :
    buf.head? = some cfg.delimiter ∧ lengthFieldSum cfg buf ≤ cfg.maxLen ∧
      buf.length < cfg.packetOverhead + lengthFieldSum cfg buf := by
  have h2 := two_le_headerNeed h
  rcases (normalForm_iff_shapes h buf).mp hq with rfl | ⟨-, -, hlt⟩ | ⟨-, hbody⟩
  · simp at hn; omega
  · omega
  · exact hbody

/-- R23: fewer bytes than the longest frame has. -/
theorem normalForm_length_lt_cap {cfg : FrameConfig} (h : admitted cfg = true) {buf : Bytes}
    (hq : normalForm cfg buf = true) : buf.length < cap cfg := by
  have h2 := two_le_headerNeed h
  have hpo := headerNeed_le_packetOverhead h
  unfold cap
  rcases (normalForm_iff h buf).mp hq with rfl | ⟨-, hl | ⟨l, hl, hm, hn⟩⟩
  · simp; omega
  · have := (lengthAt_eq_none_iff h buf).mp hl
    omega
  · have := lengthAt_le_lmax hl hm
    omega

/-- Settles O33: one byte less than the longest frame; in HEADER the phase itself is the bound. -/
theorem occupancyIsBounded : Obligations.OccupancyIsBounded := by
  unfold Obligations.OccupancyIsBounded
  intro c buf h hq
  have hcap := normalForm_length_lt_cap h hq
  refine ⟨hcap, fun hph => ⟨?_, headerNeed_le_packetOverhead h⟩, fun b => by simpa using hcap⟩
  by_contra hlong
  obtain ⟨hh, hm, hn⟩ := normalForm_body h hq (by omega)
  rw [phaseOf_eq_body h hh (lengthAt_eq_lengthFieldSum h (by omega)) hm hn] at hph
  cases hph

/-- Settles O34: the phase is read off the number of bytes, and the other registers off the phase. -/
theorem derivedRegisters : Obligations.DerivedRegisters := by
  unfold Obligations.DerivedRegisters
  intro c buf h hq
  have hcap := normalForm_length_lt_cap h hq
  refine ⟨by omega, fun h0 => ?_, fun h1 hlt => ?_, fun hge => ?_⟩
  · obtain rfl := List.length_eq_zero_iff.mp h0
    exact ⟨rfl, rfl, rfl⟩
  · have hh : buf.head? = some c.delimiter := by
      rcases (normalForm_iff h buf).mp hq with rfl | ⟨hh, -⟩
      · simp at h1
      · exact hh
    have hph := phaseOf_eq_header h hh hlt
    exact ⟨hph, by simp [latchedLength, hph], by simp [needOf, hph], by omega⟩
  · obtain ⟨hh, hm, hn⟩ := normalForm_body h hq hge
    have hl := lengthAt_eq_lengthFieldSum h hge
    have hph := phaseOf_eq_body h hh hl hm hn
    have hlatched : latchedLength c buf = some (lengthFieldSum c buf) := by simp [latchedLength, hph, hl]
    exact ⟨hph, hlatched, lengthAt_le_lmax hl hm, by simp [needOf, hph, hlatched], by omega⟩

/-! ### What an operation can answer (R30, R31, R102) -/

/-- CONFIGURE reads its operand only, and has three answers: the condition, a new decoder under an admitted
configuration, or a refusal (R100 to R102). -/
theorem exec_configure (o : Options) :
    (∃ cause, ∀ s, exec (.configure o) s = .next (s.returning (.raised (.configError cause)))) ∨
    (admitted (fillDefaults o) = true ∧ ∀ s, exec (.configure o) s = .next (s.constructed (fillDefaults o))) ∨
    ∀ s, exec (.configure o) s = .refused .notAdmitted := by
  cases hv : validate (fillDefaults o) with
  | some cause => exact .inl ⟨cause, fun s => by simp only [exec, execConfigure, hv]; rfl⟩
  | none =>
    refine .inr ?_
    cases ha : admitted (fillDefaults o) with
    | true => exact .inl ⟨rfl, fun s => by simp [exec, execConfigure, hv, ha]⟩
    | false => exact .inr fun s => by simp [exec, execConfigure, hv, ha]

theorem exec_configure_next {o : Options} {s t : State} (h : exec (.configure o) s = .next t) :
    (∃ cause, t = s.returning (.raised (.configError cause))) ∨
      admitted (fillDefaults o) = true ∧ t = s.constructed (fillDefaults o) := by
  rcases exec_configure o with ⟨cause, hex⟩ | ⟨ha, hex⟩ | hex <;> rw [hex s] at h
  · exact .inl ⟨cause, (Host.Outcome.next.inj h).symm⟩
  · exact .inr ⟨ha, (Host.Outcome.next.inj h).symm⟩
  · cases h

/-- Where the event alone selects the operation, the two gates are one. -/
theorem onInstance_eq_ifSelected {i : Instr} {s n : State} (hi : selected s.cfg s.buf i = true) :
    onInstance s n = ifSelected i s n := by
  unfold onInstance ifSelected
  cases admitted s.cfg <;> simp [hi]

/-- What a transition leaves, emits and reports, in the form in which EXTRACT answers it. -/
def Transition.extraction (t : Transition) : Extraction := ⟨t.next.buf, t.packets, t.events⟩

theorem selected_byteInstr (cfg : FrameConfig) (buf : Bytes) (k : ByteKind) (b : Byte) :
    selected cfg buf (byteInstr k b) = (byteKindAt cfg buf b == some k) := by cases k <;> rfl

theorem exec_byteInstr (k : ByteKind) (b : Byte) (s : State) :
    exec (byteInstr k b) s = ifSelected (byteInstr k b) s (s.deliver (transition s.cfg s.automaton b k).extraction) := by
  cases k <;> rfl

/-- What ENCODE returns, a frame or the condition, is fixed by `cfg` and the payload; it changes nothing else (R153). -/
theorem exec_encode (payload : Bytes) (cfg : FrameConfig) :
    ∃ r, ∀ s : State, s.cfg = cfg → exec (.encode payload) s = onInstance s (s.returning r) := by
  cases hc : encodeCheck cfg payload with
  | none =>
    refine ⟨.frame (encodeFrame cfg payload), fun s hs => ?_⟩
    subst hs
    simp only [exec, execEncode, hc]
  | some cause =>
    refine ⟨.raised (.encodeRangeError cause), fun s hs => ?_⟩
    subst hs
    simp only [exec, execEncode, hc, takeCondition_encodeRangeError, State.returning]

/-- Where it is selected, the operation delivers an extraction and returns a value, both the same whatever `diag` holds:
it keeps `cfg` and `pending`, writes `buf` and appends to the traces. -/
def Delivers (i : Instr) (s : State) : Prop :=
  ∃ (e : Extraction) (r : Result), ∀ d, exec i { s with diag := d } =
    ifSelected i { s with diag := d } ((State.deliver { s with diag := d } e).returning r)

theorem delivers_of_accept {i : Instr} {s : State} (bytes : Bytes) (hsel : selected s.cfg s.buf i = true)
    (hexec : ∀ u, exec i u = onInstance u (u.accept bytes)) : Delivers i s :=
  ⟨extract s.cfg (s.buf ++ bytes), .packets (extract s.cfg (s.buf ++ bytes)).packets, fun d =>
    (hexec { s with diag := d }).trans (onInstance_eq_ifSelected hsel)⟩

/-- An operation that appends to neither trace delivers an extraction without packets and events. -/
theorem delivers_of_withBuf {i : Instr} {s : State} (buf : Bytes) (r : Result)
    (hexec : ∀ d, exec i { s with diag := d } =
      ifSelected i { s with diag := d } ((State.withBuf { s with diag := d } buf).returning r)) : Delivers i s :=
  ⟨⟨buf, [], []⟩, r, fun d => by simp [hexec, deliver_eq, State.withBuf, State.returning]⟩

theorem delivers_byteInstr (k : ByteKind) (b : Byte) (s : State) : Delivers (byteInstr k b) s :=
  let t := transition s.cfg s.automaton b k
  ⟨t.extraction, .packets t.packets, fun d => exec_byteInstr k b { s with diag := d }⟩

theorem delivers_encode (payload : Bytes) (s : State) : Delivers (.encode payload) s := by
  obtain ⟨r, hr⟩ := exec_encode payload s.cfg
  exact delivers_of_withBuf s.buf r fun d => (hr { s with diag := d } rfl).trans (onInstance_eq_ifSelected rfl)

/-- EXTRACT returns its packets and events to the caller and appends none of them (log 8). -/
theorem delivers_extract (s : State) : Delivers .extract s :=
  let e := extract s.cfg s.buf
  delivers_of_withBuf e.buf (.extracted e.packets e.events) fun _ => onInstance_eq_ifSelected rfl

theorem delivers_xResync (l : Nat) (s : State) : Delivers (.xResync l) s :=
  ⟨⟨s.buf.drop 1, [], [.resync l]⟩, s.result, fun d => by
    simp [exec, execXResync, takeCondition_resyncEvent, deliver_eq, State.returning]⟩

theorem delivers_xEmit (f : Bytes) (s : State) : Delivers (.xEmit f) s :=
  ⟨⟨discardFront s.buf f.length, [f], []⟩, s.result, fun d => by
    simp [exec, execXEmit, deliver_eq, State.emitOut, State.withBuf, State.returning]⟩

theorem exec_delivers {i : Instr} (hi : ∀ o, i ≠ .configure o) (s : State) : Delivers i s := by
  cases i with
  | hdrGeneric d pre len post => exact delivers_of_accept _ rfl fun _ => rfl
  | hdrDefault len => exact delivers_of_accept _ rfl fun _ => rfl
  | hdrScenario len => exact delivers_of_accept _ rfl fun _ => rfl
  | hdrPadded p len q => exact delivers_of_accept _ rfl fun _ => rfl
  | configure o => exact absurd rfl (hi o)
  | reset => exact delivers_of_withBuf [] _ fun _ => onInstance_eq_ifSelected rfl
  | endStream => exact delivers_of_withBuf [] _ fun _ => onInstance_eq_ifSelected rfl
  | push b => exact delivers_of_accept [b] rfl fun _ => rfl
  | feed chunk => exact delivers_of_accept chunk rfl fun _ => rfl
  | encode payload => exact delivers_encode payload s
  | extract => exact delivers_extract s
  | xScan => exact delivers_of_withBuf (discardFront s.buf s.buf.length) s.result fun _ => rfl
  | xAlign p => exact delivers_of_withBuf (discardFront s.buf p) s.result fun _ => rfl
  | xHwait => exact delivers_of_withBuf s.buf s.result fun _ => rfl
  | xLen l => exact delivers_of_withBuf s.buf s.result fun _ => rfl
  | xResync l => exact delivers_xResync l s
  | xBwait => exact delivers_of_withBuf s.buf s.result fun _ => rfl
  | xEmit f => exact delivers_xEmit f s
  | bHuntDelim b => exact delivers_byteInstr .huntDelim b s
  | bHuntNoise b => exact delivers_byteInstr .huntNoise b s
  | bHeaderAcc b => exact delivers_byteInstr .headerAcc b s
  | bHeaderLast b => exact delivers_byteInstr .headerLast b s
  | bBodyAcc b => exact delivers_byteInstr .bodyAcc b s
  | bBodyLast b => exact delivers_byteInstr .bodyLast b s

/-- Settles O35: what is delivered is appended; a CONFIGURE keeps the traces where it raises, and else makes a new
decoder. -/
theorem tracesAreAppendOnly : Obligations.TracesAreAppendOnly := by
  unfold Obligations.TracesAreAppendOnly
  intro i s t h
  by_cases hi : ∃ o, i = .configure o
  · obtain ⟨o, rfl⟩ := hi
    rcases exec_configure_next h with ⟨cause, rfl⟩ | ⟨-, rfl⟩
    · exact .inl ⟨List.prefix_rfl, List.prefix_rfl⟩
    · exact .inr ⟨⟨o, rfl⟩, rfl, rfl, rfl⟩
  · obtain ⟨e, r, he⟩ := exec_delivers (fun o ho => hi ⟨o, ho⟩) s
    obtain ⟨-, -, rfl⟩ := ifSelected_eq_next_iff.mp ((he s.diag).symm.trans h)
    exact .inl ⟨List.prefix_append _ _, List.prefix_append _ _⟩

/-- Settles O36: the two gates and what is delivered are the same for both traces; CONFIGURE reads its operand only. -/
theorem nothingDependsOnDiagnostics : Obligations.NothingDependsOnDiagnostics := by
  unfold Obligations.NothingDependsOnDiagnostics
  intro i s d t h
  by_cases hi : ∃ o, i = .configure o
  · obtain ⟨o, rfl⟩ := hi
    rcases exec_configure o with ⟨cause, hex⟩ | ⟨-, hex⟩ | hex <;> rw [hex s] at h <;> cases h
    · exact ⟨_, hex _, rfl, rfl, rfl, rfl, rfl⟩
    · exact ⟨_, hex _, rfl, rfl, rfl, rfl, rfl⟩
  · obtain ⟨e, r, he⟩ := exec_delivers (fun o ho => hi ⟨o, ho⟩) s
    obtain ⟨hadm, hsel, rfl⟩ := ifSelected_eq_next_iff.mp ((he s.diag).symm.trans h)
    exact ⟨_, (he d).trans (ifSelected_eq_next_iff.mpr ⟨hadm, hsel, rfl⟩), rfl, rfl, rfl, rfl, rfl⟩

/-! ### Arriving bytes (R22, R168) -/

/-- While the length field cannot be complete, EXTRACT drops what stands before the first delimiter (R121 to R123). -/
theorem extract_of_short {cfg : FrameConfig} (h : admitted cfg = true) {buf : Bytes}
    (hlt : buf.length < headerNeed cfg) :
    extract cfg buf = ⟨(find buf cfg.delimiter).elim [] buf.drop, [], []⟩ := by
  have hrest (q : Nat) (hq : find buf cfg.delimiter = some q) : extract cfg (buf.drop q) = ⟨buf.drop q, [], []⟩ := by
    refine extract_of_normalForm h ((normalForm_iff h _).mpr (.inr ⟨head?_drop_find hq, .inl ?_⟩))
    rw [lengthAt_eq_none_iff h, List.length_drop]
    omega
  cases hf : find buf cfg.delimiter with
  | none =>
    rcases List.eq_nil_or_concat buf with rfl | ⟨l, b, rfl⟩
    · rfl
    · rw [extract_unfold h, choose_of_find_none (by simp) hf]
      rfl
  | some q =>
    rcases Nat.eq_zero_or_pos q with rfl | hq
    · exact hrest 0 hf
    · rw [extract_unfold h, choose_of_find_pos hf hq]
      exact hrest q hf

/-- A whole frame at the front, and nothing behind it, is emitted (R127). -/
theorem extract_of_isFrame {cfg : FrameConfig} (h : admitted cfg = true) {buf : Bytes} (hf : isFrame cfg buf = true) :
    extract cfg buf = ⟨[], [buf], []⟩ := by
  obtain ⟨hh, l, hl, hm, hn⟩ := (isFrame_iff buf).mp hf
  have hc : choose cfg buf = .emit l := by
    rw [choose_of_head hh, hl]
    simp [Nat.not_lt.mpr hm, hn]
  rw [extract_unfold h, hc]
  simp [← hn]

/-- The last header byte: the length is complete and judged (R164). -/
theorem headerLast_eq_extract {cfg : FrameConfig} (h : admitted cfg = true) {buf : Bytes} {b : Byte}
    (hh : buf.head? = some cfg.delimiter) (hn : buf.length + 1 = headerNeed cfg) :
    (headerLast cfg ⟨.header, buf, none⟩ b).extraction = extract cfg (buf ++ [b]) := by
  symm
  have hpo := headerNeed_le_packetOverhead h
  have hfull : (buf ++ [b]).length = headerNeed cfg := by simp [hn]
  have hhead : (buf ++ [b]).head? = some cfg.delimiter := by simp [hh]
  have hl := lengthAt_eq_lengthFieldSum h hfull.ge
  simp only [headerLast, ← ((lengthAt_eq_some_iff h _ _).mp hl).2]
  generalize buf ++ [b] = full at *
  generalize lengthFieldSum cfg full = v at *
  split
  next hm =>
    have hc : choose cfg full = .resync v := by simp [choose_of_head hhead, hl, hm]
    have hrest : (full.drop 1).length < headerNeed cfg := by
      have := two_le_headerNeed h
      rw [List.length_drop]; omega
    rw [extract_unfold h, hc]
    simp only [extract_of_short h hrest]
    cases find (full.drop 1) cfg.delimiter <;> rfl
  next hm =>
    split
    next hbare => exact extract_of_isFrame h ((isFrame_iff _).mpr ⟨hhead, v, hl, by omega, by omega⟩)
    next hmore =>
      exact extract_of_normalForm h ((normalForm_iff h _).mpr (.inr ⟨hhead, .inr ⟨v, hl, by omega, by omega⟩⟩))

/-- The transition that an arriving byte takes does what EXTRACT does with the byte appended (R168). -/
theorem transition_eq_extract {cfg : FrameConfig} (h : admitted cfg = true) {buf : Bytes}
    (hq : normalForm cfg buf = true) {b : Byte} {k : ByteKind} (hk : byteKindAt cfg buf b = some k) :
    (transition cfg ((automatonOf cfg buf).getD automatonReset) b k).extraction = extract cfg (buf ++ [b]) := by
  symm
  have h2 := two_le_headerNeed h
  unfold byteKindAt at hk
  rcases automatonOf_cases h hq with ⟨rfl, ha⟩ | ⟨hh, hlt, ha⟩ | ⟨l, hh, hl, hm, hn, ha⟩ <;> rw [ha] at hk ⊢
  · have hx := extract_of_short h (buf := [] ++ [b]) (by simp; omega)
    simp only [Option.bind_some, byteRow_hunt, Option.some.injEq] at hk
    subst hk
    rw [hx]
    by_cases hb : b = cfg.delimiter <;> simp [find, hb, transition, huntDelim, huntNoise, Transition.extraction]
  · simp only [Option.bind_some, byteRow_header] at hk
    split at hk
    next hacc =>
      cases hk
      refine extract_of_normalForm h ((normalForm_iff h _).mpr (.inr ⟨by simp [hh], .inl ?_⟩))
      rw [lengthAt_eq_none_iff h]
      simpa using hacc
    next =>
      obtain ⟨hlast, rfl⟩ : buf.length + 1 = headerNeed cfg ∧ .headerLast = k := by simpa using hk
      exact (headerLast_eq_extract h hh hlast).symm
  · have hh' : (buf ++ [b]).head? = some cfg.delimiter := by simp [hh]
    have hl' := lengthAt_append h hl [b]
    simp only [Option.bind_some, byteRow_body] at hk
    split at hk
    next hacc =>
      cases hk
      exact extract_of_normalForm h ((normalForm_iff h _).mpr (.inr ⟨hh', .inr ⟨l, hl', hm, by simpa using hacc⟩⟩))
    next =>
      obtain ⟨hlast, rfl⟩ : buf.length + 1 = cfg.packetOverhead + l ∧ .bodyLast = k := by simpa using hk
      exact extract_of_isFrame h ((isFrame_iff _).mpr ⟨hh', l, hl', hm, by simpa using hlast⟩)

/-- On a quiescent decoder a BYTE operation is the arrival of its byte (R160, R168). -/
theorem exec_byteInstr_next {s t : State} (hq : s.Quiescent) {k : ByteKind} {b : Byte}
    (h : exec (byteInstr k b) s = .next t) : t = s.accept [b] := by
  rw [exec_byteInstr, ifSelected_eq_next_iff, selected_byteInstr] at h
  obtain ⟨hadm, hsel, rfl⟩ := h
  exact congrArg s.deliver (transition_eq_extract hadm hq.2 (by simpa using hsel))

/-! ### The invariant (R22, R31, R102, R116) -/

/-- At quiescence the loop exits: no step that shortens the accumulator is selected (R120, R128). -/
theorem not_selected_of_normalForm {cfg : FrameConfig} (h : admitted cfg = true) {buf : Bytes}
    (hq : normalForm cfg buf = true) :
    ¬ selected cfg buf .xScan = true ∧ (∀ p, ¬ selected cfg buf (.xAlign p) = true) ∧
      (∀ l, ¬ selected cfg buf (.xResync l) = true) ∧ ∀ f, ¬ selected cfg buf (.xEmit f) = true := by
  rcases (normalForm_iff_choose h buf).mp hq with hc | hc | ⟨l, hc⟩ <;> simp [selected, lengthRead, hc]

/-- On a quiescent decoder EXTRACT returns that there is nothing, and nothing else (R129). -/
theorem exec_extract_next {s t : State} (hq : s.Quiescent) (h : exec .extract s = .next t) :
    t = s.returning (.extracted [] []) := by
  obtain ⟨hadm, rfl⟩ := onInstance_eq_next_iff.mp h
  rw [extract_of_normalForm hadm hq.2]
  rfl

/-- All that an operation can do to a quiescent decoder: put a new one in its place, return a value, empty the
accumulator, or let bytes arrive. -/
inductive QuiescentChange (s : State) : State → Prop
  | constructed {cfg : FrameConfig} (h : admitted cfg = true) : QuiescentChange s (s.constructed cfg)
  | returning (r : Result) : QuiescentChange s (s.returning r)
  | cleared : QuiescentChange s s.cleared
  | accept (bytes : Bytes) : QuiescentChange s (s.accept bytes)

theorem quiescentChange_of_onInstance {s n t : State} (hn : QuiescentChange s n) (h : onInstance s n = .next t) :
    QuiescentChange s t := (onInstance_eq_next_iff.mp h).2 ▸ hn

/-- The waits and the reading of the length change nothing (R123, R124, R126). -/
theorem quiescentChange_of_waiting {i : Instr} {s t : State} (h : ifSelected i s s = .next t) : QuiescentChange s t :=
  (ifSelected_eq_next_iff.mp h).2.2 ▸ .returning s.result

theorem quiescentChange_of_byteInstr {s t : State} (hq : s.Quiescent) (k : ByteKind) (b : Byte)
    (h : exec (byteInstr k b) s = .next t) : QuiescentChange s t := exec_byteInstr_next hq h ▸ .accept [b]

theorem exec_quiescentChange {i : Instr} {s t : State} (hq : s.Quiescent) (h : exec i s = .next t) :
    QuiescentChange s t := by
  obtain ⟨hscan, halign, hresync, hemit⟩ := not_selected_of_normalForm hq.1 hq.2
  cases i with
  | hdrGeneric d pre len post => exact quiescentChange_of_onInstance (.accept _) h
  | hdrDefault len => exact quiescentChange_of_onInstance (.accept _) h
  | hdrScenario len => exact quiescentChange_of_onInstance (.accept _) h
  | hdrPadded p len q => exact quiescentChange_of_onInstance (.accept _) h
  | configure o =>
    rcases exec_configure_next h with ⟨cause, rfl⟩ | ⟨ha, rfl⟩
    · exact .returning _
    · exact .constructed ha
  | reset => exact quiescentChange_of_onInstance .cleared h
  | endStream => exact quiescentChange_of_onInstance .cleared h
  | push b => exact quiescentChange_of_onInstance (.accept _) h
  | feed chunk => exact quiescentChange_of_onInstance (.accept _) h
  | encode payload =>
    obtain ⟨r, hr⟩ := exec_encode payload s.cfg
    exact quiescentChange_of_onInstance (.returning r) ((hr s rfl).symm.trans h)
  | extract => exact exec_extract_next hq h ▸ .returning _
  | xScan => exact absurd (ifSelected_eq_next_iff.mp h).2.1 hscan
  | xAlign p => exact absurd (ifSelected_eq_next_iff.mp h).2.1 (halign p)
  | xHwait => exact quiescentChange_of_waiting (i := .xHwait) h
  | xLen l => exact quiescentChange_of_waiting (i := .xLen l) h
  | xResync l => exact absurd (ifSelected_eq_next_iff.mp h).2.1 (hresync l)
  | xBwait => exact quiescentChange_of_waiting (i := .xBwait) h
  | xEmit f => exact absurd (ifSelected_eq_next_iff.mp h).2.1 (hemit f)
  | bHuntDelim b => exact quiescentChange_of_byteInstr hq .huntDelim b h
  | bHuntNoise b => exact quiescentChange_of_byteInstr hq .huntNoise b h
  | bHeaderAcc b => exact quiescentChange_of_byteInstr hq .headerAcc b h
  | bHeaderLast b => exact quiescentChange_of_byteInstr hq .headerLast b h
  | bBodyAcc b => exact quiescentChange_of_byteInstr hq .bodyAcc b h
  | bBodyLast b => exact quiescentChange_of_byteInstr hq .bodyLast b h

theorem accept_inv {s : State} (hs : s.Inv) (bytes : Bytes) : (s.accept bytes).Inv := by
  obtain ⟨⟨hadm, -⟩, hout, hdiag⟩ := hs
  obtain ⟨hbuf, hpackets, hevents⟩ := extract_sound hadm (s.buf ++ bytes)
  refine ⟨⟨hadm, hbuf⟩, ?_, ?_⟩
  · rw [State.accept_out, List.all_append, State.accept_cfg, hout, hpackets]; rfl
  · rw [State.accept_diag, List.all_append, State.accept_cfg, hdiag, hevents]; rfl

theorem exec_inv {i : Instr} {s t : State} (hs : s.Inv) (h : exec i s = .next t) : t.Inv := by
  cases exec_quiescentChange hs.1 h with
  | constructed ha => exact ⟨⟨ha, rfl⟩, rfl, rfl⟩
  | returning r => exact hs
  | cleared => exact ⟨⟨hs.1.1, rfl⟩, hs.2⟩
  | accept bytes => exact accept_inv hs bytes

/-- A step holds the state, or carries out an operation once its event is taken from the queue. -/
theorem step_eq_next {s t : State} (h : step s = .next t) :
    t = s ∨ ∃ i rest, exec i { s with pending := rest } = .next t := by
  unfold step at h
  cases hp : s.pending with
  | nil =>
    rw [fetch_nil hp] at h
    exact .inl (Host.Outcome.next.inj h).symm
  | cons e rest =>
    rw [fetch_cons hp] at h
    dsimp only at h
    split at h
    next i _ => exact .inr ⟨i, rest, h⟩
    next => cases h

/-- Settles O59: at quiescence an operation makes a new decoder, returns a value, empties the accumulator or lets bytes
arrive, and of the arriving bytes EXTRACT leaves a normal form, whole frames and legal events. -/
theorem invariantIsKept : Obligations.InvariantIsKept := by
  unfold Obligations.InvariantIsKept
  intro s t hs h
  rcases step_eq_next h with rfl | ⟨i, rest, hi⟩
  · exact hs
  · exact exec_inv (s := { s with pending := rest }) hs hi

/-- Settles O60: the defaults of R9 are admitted, and there is nothing yet to be in shape. -/
theorem invariantHoldsAtReset : Obligations.InvariantHoldsAtReset := by
  unfold Obligations.InvariantHoldsAtReset
  exact ⟨⟨⟨by decide, rfl⟩, rfl, rfl⟩, rfl, rfl, rfl⟩

/-- Settles O32: an emptied accumulator and that of a new decoder hold nothing, and EXTRACT ends in the normal form
whatever it starts from. -/
theorem quiescentAccumulatorHasOneOfThreeShapes : Obligations.QuiescentAccumulatorHasOneOfThreeShapes := by
  unfold Obligations.QuiescentAccumulatorHasOneOfThreeShapes
  refine ⟨fun c buf h => normalForm_iff_shapes h buf, ?_⟩
  rintro i s t h (rfl | rfl | ⟨b, rfl⟩ | ⟨chunk, rfl⟩ | ⟨o, rfl, hraised⟩)
  · obtain ⟨-, rfl⟩ := onInstance_eq_next_iff.mp h
    rfl
  · obtain ⟨-, rfl⟩ := onInstance_eq_next_iff.mp h
    rfl
  · obtain ⟨hadm, rfl⟩ := onInstance_eq_next_iff.mp h
    exact (extract_sound hadm _).normal
  · obtain ⟨hadm, rfl⟩ := onInstance_eq_next_iff.mp h
    exact (extract_sound hadm _).normal
  · rcases exec_configure_next h with ⟨cause, rfl⟩ | ⟨-, rfl⟩
    · exact absurd rfl (hraised cause)
    · rfl

end Sys2Proof.Machine
end

section
/-! PROOFS. The family of 20_memory.md: what a step takes from the queue and what becomes of it (R60, R192). -/

namespace Sys2Proof.Machine

/-- Nothing pending: the block holds its state (R192). -/
theorem step_of_pending_nil {s : State} (hp : s.pending = []) : step s = .next s := by
  rw [step, fetch_nil hp]

/-- Taking the event off the queue leaves the configuration and the accumulator, so the event is decoded as the state
before the step selects (R60, R81). -/
theorem step_of_decode_ok {s : State} {e : Event} {rest : List Event} {i : Instr} (hp : s.pending = e :: rest)
    (hd : decode s.cfg s.buf e = .ok i) : step s = exec i { s with pending := rest } := by
  simp only [step, fetch_cons hp, hd]

/-- Log 9: the reason the decoder gives is the reason of the refusal. -/
theorem step_of_decode_error {s : State} {e : Event} {rest : List Event} {why : DecodeError}
    (hp : s.pending = e :: rest) (hd : decode s.cfg s.buf e = .error why) :
    step s = .refused (.undecodable why) := by
  simp only [step, fetch_cons hp, hd]

/-- Settles O57: the queue is empty or has a first event, which decodes to an operation or to a reason. -/
theorem stepRunsDecodedOperation : Obligations.StepRunsDecodedOperation := by
  unfold Obligations.StepRunsDecodedOperation
  exact ⟨fun _ _ _ _ => step_of_decode_ok, fun _ => step_of_pending_nil, fun _ _ _ _ => step_of_decode_error⟩

end Sys2Proof.Machine
end

section
/-! PROOFS. The family of 30_encoding.md: the header layouts and what their arrival does (R70 to R78), which operation the
content of the accumulator selects (R81), and the agreement of decode and encode (R82). -/

namespace Sys2Proof.Machine

/-! ### What selects a step (R81, R121 to R127) -/

/-- The "Selected when" lines of R121 to R127, with the loop's exit on an empty accumulator (R120). -/
def StepSelecting (cfg : FrameConfig) (buf : Bytes) : Choice → Prop
  | .empty => buf = []
  | .scan => buf ≠ [] ∧ cfg.delimiter ∉ buf
  | .align p => 0 < p ∧ buf[p]? = some cfg.delimiter ∧ cfg.delimiter ∉ buf.take p
  | .hwait => buf.head? = some cfg.delimiter ∧ lengthAt cfg buf = none
  | .resync l => buf.head? = some cfg.delimiter ∧ lengthAt cfg buf = some l ∧ cfg.maxLen < l
  | .bwait l => buf.head? = some cfg.delimiter ∧ lengthAt cfg buf = some l ∧ l ≤ cfg.maxLen ∧
      buf.length < cfg.packetOverhead + l
  | .emit l => buf.head? = some cfg.delimiter ∧ lengthAt cfg buf = some l ∧ l ≤ cfg.maxLen ∧
      cfg.packetOverhead + l ≤ buf.length

/-- The branch that the decision tree takes is one whose selecting condition holds. -/
theorem selecting_choose (cfg : FrameConfig) (buf : Bytes) : StepSelecting cfg buf (choose cfg buf) := by
  rcases choose_cases cfg buf with ⟨hb, hc⟩ | ⟨h0, hd, hc⟩ | ⟨p, hp, hf, hc⟩ |
      ⟨hh, ⟨hl, hc⟩ | ⟨l, hl, ⟨hm, hc⟩ | ⟨hm, hn, hc⟩ | ⟨hm, hn, hc⟩⟩⟩ <;> rw [hc]
  · exact hb
  · exact ⟨h0, hd⟩
  · exact ⟨hp, (find_eq_some_iff _ _ _).mp hf⟩
  · exact ⟨hh, hl⟩
  · exact ⟨hh, hl, hm⟩
  · exact ⟨hh, hl, hm, hn⟩
  · exact ⟨hh, hl, hm, hn⟩

theorem selecting_of_choose {cfg : FrameConfig} {buf : Bytes} {c : Choice} (hc : choose cfg buf = c) :
    StepSelecting cfg buf c := hc ▸ selecting_choose cfg buf

/-- X.LEN reads the length of a candidate, whatever is made of it (R124). -/
theorem lengthAt_of_lengthRead {cfg : FrameConfig} {buf : Bytes} {l : Nat} (h : lengthRead (choose cfg buf) = some l) :
    buf.head? = some cfg.delimiter ∧ lengthAt cfg buf = some l := by
  have hsel := selecting_choose cfg buf
  revert h hsel
  cases choose cfg buf with
  | empty => nofun
  | scan => nofun
  | align p => nofun
  | hwait => nofun
  | resync m => rintro ⟨⟩ ⟨hh, hl, -⟩; exact ⟨hh, hl⟩
  | bwait m => rintro ⟨⟩ ⟨hh, hl, -⟩; exact ⟨hh, hl⟩
  | emit m => rintro ⟨⟩ ⟨hh, hl, -⟩; exact ⟨hh, hl⟩

theorem selected_xBwait_iff (cfg : FrameConfig) (buf : Bytes) :
    selected cfg buf .xBwait = true ↔ ∃ l, choose cfg buf = .bwait l := by
  cases hc : choose cfg buf <;> simp [selected, lengthRead, hc]

theorem selected_xEmit_iff (cfg : FrameConfig) (buf f : Bytes) :
    selected cfg buf (.xEmit f) = true ↔
      ∃ l, choose cfg buf = .emit l ∧ f = buf.take (cfg.packetOverhead + l) := by
  cases hc : choose cfg buf <;> simp [selected, lengthRead, hc]

/-! ### What selects a transition (R81, R161 to R166) -/

/-- The "Selected when" lines of R161 to R166, on the registers derived from the accumulator. -/
def ByteSelecting (cfg : FrameConfig) (buf : Bytes) (b : Byte) : ByteKind → Prop
  | .huntDelim => buf = [] ∧ b = cfg.delimiter
  | .huntNoise => buf = [] ∧ b ≠ cfg.delimiter
  | .headerAcc => phaseOf cfg buf = some .header ∧ buf.length + 1 < headerNeed cfg
  | .headerLast => phaseOf cfg buf = some .header ∧ buf.length + 1 = headerNeed cfg
  | .bodyAcc => ∃ l, latchedLength cfg buf = some l ∧ buf.length + 1 < cfg.packetOverhead + l
  | .bodyLast => ∃ l, latchedLength cfg buf = some l ∧ buf.length + 1 = cfg.packetOverhead + l

/-- The automaton has a state at quiescence only (R160). -/
theorem normalForm_of_byteKindAt {cfg : FrameConfig} {buf : Bytes} {b : Byte} {k : ByteKind}
    (hk : byteKindAt cfg buf b = some k) : normalForm cfg buf = true := by
  by_contra hq
  simp [byteKindAt, automatonOf, phaseOf, hq] at hk

theorem selecting_of_byteKindAt {cfg : FrameConfig} (h : admitted cfg = true) {buf : Bytes} {b : Byte} {k : ByteKind}
    (hk : byteKindAt cfg buf b = some k) : ByteSelecting cfg buf b k := by
  have hq := normalForm_of_byteKindAt hk
  unfold byteKindAt at hk
  rcases automatonOf_cases h hq with ⟨rfl, ha⟩ | ⟨hh, hlt, ha⟩ | ⟨l, hh, hl, hm, hn, ha⟩ <;>
    rw [ha, Option.bind_some] at hk
  · rw [byteRow_hunt] at hk
    split at hk <;> cases hk
    next hb => exact ⟨rfl, hb⟩
    next hb => exact ⟨rfl, hb⟩
  · have hph := phaseOf_eq_header h hh hlt
    rw [byteRow_header] at hk
    split at hk
    next hacc => cases hk; exact ⟨hph, hacc⟩
    next =>
      obtain ⟨hlast, rfl⟩ : buf.length + 1 = headerNeed cfg ∧ .headerLast = k := by simpa using hk
      exact ⟨hph, hlast⟩
  · have hlatched : latchedLength cfg buf = some l := by rw [latchedLength, if_pos (phaseOf_eq_body h hh hl hm hn), hl]
    rw [byteRow_body] at hk
    split at hk
    next hacc => cases hk; exact ⟨l, hlatched, hacc⟩
    next =>
      obtain ⟨hlast, rfl⟩ : buf.length + 1 = cfg.packetOverhead + l ∧ .bodyLast = k := by simpa using hk
      exact ⟨l, hlatched, hlast⟩

theorem selecting_of_selected_byteInstr {cfg : FrameConfig} (h : admitted cfg = true) {buf : Bytes} {b : Byte}
    {k : ByteKind} (hsel : selected cfg buf (byteInstr k b) = true) : ByteSelecting cfg buf b k :=
  selecting_of_byteKindAt h (by simpa [selected_byteInstr] using hsel)

/-! ### Reading a header by its layout (R71 to R76, R82) -/

theorem slice_append_slice (s : Bytes) {a b c : Nat} (hab : a ≤ b) (hbc : b ≤ c) :
    slice s a b ++ slice s b c = slice s a c := by
  have hsplit : c - a = (b - a) + (c - b) := by omega
  simp only [slice, hsplit, List.take_add, List.drop_drop, Nat.add_sub_cancel' hab]

/-- The operands of HDR.GENERIC that make a header of `cfg` (R71). -/
structure IsLayout (cfg : FrameConfig) (pre len post : Bytes) : Prop where
  padBefore : pre.length + 1 = cfg.lengthOffset
  lenBytes : len.length = cfg.lengthBytes
  padAfter : headerNeed cfg + post.length = cfg.packetOverhead

theorem IsLayout.length {cfg : FrameConfig} {pre len post : Bytes} (hlay : IsLayout cfg pre len post) (d : Byte) :
    (genericHeader d pre len post).length = cfg.packetOverhead := by
  obtain ⟨hpre, hlen, hpost⟩ := hlay
  rw [← hpost, headerNeed, ← hpre, ← hlen]
  simp [genericHeader]
  omega

/-- Each field of the layout is read where it was written. -/
theorem IsLayout.slices {cfg : FrameConfig} {pre len post : Bytes} (hlay : IsLayout cfg pre len post) (d : Byte) :
    slice (genericHeader d pre len post) 1 cfg.lengthOffset = pre ∧
    slice (genericHeader d pre len post) cfg.lengthOffset (headerNeed cfg) = len ∧
    slice (genericHeader d pre len post) (headerNeed cfg) cfg.packetOverhead = post := by
  obtain ⟨hpre, hlen, hpost⟩ := hlay
  rw [← hpost, headerNeed, ← hpre, ← hlen]
  refine ⟨?_, ?_, ?_⟩
  · simp [slice, genericHeader]
  · simp [slice, genericHeader]
  · have hdrop : pre.length + 1 + len.length = (pre ++ len).length + 1 := by simp; omega
    rw [slice, genericHeader, hdrop, List.drop_succ_cons, List.drop_left]
    simp

/-- Cut at `lengthOffset` and at `H`, a header has the fields of the layout. -/
theorem isLayout_slices {cfg : FrameConfig} (h : admitted cfg = true) {bytes : Bytes}
    (hlen : bytes.length = cfg.packetOverhead) :
    IsLayout cfg (slice bytes 1 cfg.lengthOffset) (slice bytes cfg.lengthOffset (headerNeed cfg))
      (slice bytes (headerNeed cfg) cfg.packetOverhead) := by
  have hpo := headerNeed_le_packetOverhead h
  obtain ⟨-, -, hlo, -⟩ := (admitted_iff cfg).mp h
  have hH : headerNeed cfg = cfg.lengthOffset + cfg.lengthBytes := rfl
  constructor <;> rw [slice_length] <;> omega

/-- The DELIM, PAD, LEN and PAD fields of a header, put together again. -/
theorem genericHeader_slices {cfg : FrameConfig} (h : admitted cfg = true) {bytes : Bytes}
    (hlen : bytes.length = cfg.packetOverhead) (hh : bytes.head? = some cfg.delimiter) :
    genericHeader cfg.delimiter (slice bytes 1 cfg.lengthOffset) (slice bytes cfg.lengthOffset (headerNeed cfg))
      (slice bytes (headerNeed cfg) cfg.packetOverhead) = bytes := by
  have hpo := headerNeed_le_packetOverhead h
  obtain ⟨-, -, hlo, -⟩ := (admitted_iff cfg).mp h
  have hH : cfg.lengthOffset ≤ headerNeed cfg := Nat.le_add_right _ _
  obtain ⟨rest, rfl⟩ := List.head?_eq_some_iff.mp hh
  rw [genericHeader, slice_append_slice _ hlo hH, slice_append_slice _ (hlo.trans hH) hpo]
  simp [slice, ← hlen]

theorem wellFormed_hdrGeneric_iff (cfg : FrameConfig) (d : Byte) (pre len post : Bytes) :
    wellFormed cfg (.hdrGeneric d pre len post) = true ↔ d = cfg.delimiter ∧ IsLayout cfg pre len post ∧
      cfg ≠ defaultConfig ∧ cfg ≠ scenarioConfig ∧ cfg ≠ paddedConfig := by
  simp only [wellFormed, Bool.and_eq_true, beq_iff_eq, decide_eq_true_eq, bne_iff_ne]
  constructor
  · rintro ⟨⟨⟨⟨⟨⟨hd, hpre⟩, hlen⟩, hpost⟩, hD⟩, hS⟩, hP⟩
    exact ⟨hd, ⟨hpre, hlen, hpost⟩, hD, hS, hP⟩
  · rintro ⟨hd, ⟨hpre, hlen, hpost⟩, hD, hS, hP⟩
    exact ⟨⟨⟨⟨⟨⟨hd, hpre⟩, hlen⟩, hpost⟩, hD⟩, hS⟩, hP⟩

theorem decodeHeader_genericHeader {cfg : FrameConfig} (h : admitted cfg = true) {d : Byte} {pre len post : Bytes}
    (hwf : wellFormed cfg (.hdrGeneric d pre len post) = true) :
    decodeHeader cfg (genericHeader d pre len post) = .ok (.hdrGeneric d pre len post) := by
  obtain ⟨rfl, hlay, hD, hS, hP⟩ := (wellFormed_hdrGeneric_iff _ _ _ _ _).mp hwf
  obtain ⟨hpre, hlen, hpost⟩ := hlay.slices cfg.delimiter
  have hhead : (genericHeader cfg.delimiter pre len post).head? = some cfg.delimiter := rfl
  simp [decodeHeader, h, hlay.length, hhead, hD, hS, hP, hpre, hlen, hpost]

theorem scenario_append (len : BitVec 16) : len.extractLsb' 8 8 ++ len.extractLsb' 0 8 = len := by
  rw [BitVec.extractLsb'_append_extractLsb'_eq_extractLsb' (by decide)]
  exact BitVec.extractLsb'_eq_self

theorem decodeHeader_defaultHeader (len : Byte) :
    decodeHeader defaultConfig (defaultHeader len) = .ok (.hdrDefault len) := rfl

theorem decodeHeader_scenarioHeader (len : BitVec 16) :
    decodeHeader scenarioConfig (scenarioHeader len) = .ok (.hdrScenario len) :=
  congrArg (Except.ok ∘ Instr.hdrScenario) (scenario_append len)

theorem decodeHeader_paddedHeader (p len q : Byte) :
    decodeHeader paddedConfig (paddedHeader p len q) = .ok (.hdrPadded p len q) := rfl

/-- What a header decodes to is the row of the configuration, whose layout gives the bytes back. -/
theorem decodeHeader_sound {cfg : FrameConfig} (h : admitted cfg = true) {buf bytes : Bytes} {i : Instr}
    (hd : decodeHeader cfg bytes = .ok i) :
    wellFormed cfg i = true ∧ selected cfg buf i = true ∧ encode i = .header bytes := by
  unfold decodeHeader at hd
  split_ifs at hd with hadm hlen hh hD hS hP <;> cases hd <;> rw [not_ne_iff] at hlen hh
  · obtain ⟨rest, rfl⟩ := List.head?_eq_some_iff.mp hh
    subst hD
    obtain ⟨len, rfl⟩ := List.length_eq_one_iff.mp (Nat.succ.inj hlen)
    exact ⟨rfl, rfl, rfl⟩
  · obtain ⟨rest, rfl⟩ := List.head?_eq_some_iff.mp hh
    subst hS
    obtain ⟨lo, hi, rfl⟩ := List.length_eq_two.mp (Nat.succ.inj hlen)
    exact ⟨rfl, rfl, congrArg Event.header (scenarioHeader_append lo hi)⟩
  · obtain ⟨rest, rfl⟩ := List.head?_eq_some_iff.mp hh
    subst hP
    obtain ⟨p, len, q, rfl⟩ := List.length_eq_three.mp (Nat.succ.inj hlen)
    exact ⟨rfl, rfl, rfl⟩
  · exact ⟨(wellFormed_hdrGeneric_iff _ _ _ _ _).mpr ⟨rfl, isLayout_slices h hlen, hD, hS, hP⟩, rfl,
      congrArg Event.header (genericHeader_slices h hlen hh)⟩

/-! ### Decode and encode (R81, R82) -/

theorem decode_select {cfg : FrameConfig} (h : admitted cfg = true) (buf : Bytes) :
    decode cfg buf .select = stepOf (choose cfg buf) := by simp [decode, h]

theorem decode_afterLen {cfg : FrameConfig} (h : admitted cfg = true) (buf : Bytes) :
    decode cfg buf .afterLen = stepAfterLen cfg buf (choose cfg buf) := by simp [decode, h]

/-- An arriving byte is the operation of the row it takes; where it takes none there is no operation. -/
theorem decode_serial_eq_ok_iff {cfg : FrameConfig} (h : admitted cfg = true) (buf : Bytes) (b : Byte) (i : Instr) :
    decode cfg buf (.serial b) = .ok i ↔ ∃ k, byteKindAt cfg buf b = some k ∧ byteInstr k b = i := by
  cases hk : byteKindAt cfg buf b <;> simp [decode, h, hk]

theorem encode_byteInstr (k : ByteKind) (b : Byte) : encode (byteInstr k b) = .serial b := by cases k <;> rfl

theorem stepOf_of_lengthRead {c : Choice} {l : Nat} (hl : lengthRead c = some l) : stepOf c = .ok (.xLen l) := by
  cases c <;> cases hl <;> rfl

theorem decode_byteInstr {cfg : FrameConfig} (h : admitted cfg = true) {buf : Bytes} {k : ByteKind} {b : Byte}
    (hsel : selected cfg buf (byteInstr k b) = true) :
    decode cfg buf (encode (byteInstr k b)) = .ok (byteInstr k b) := by
  rw [selected_byteInstr, beq_iff_eq] at hsel
  rw [encode_byteInstr]
  exact (decode_serial_eq_ok_iff h buf b _).mpr ⟨k, hsel, rfl⟩

/-- The event of an operation that could be the one selected decodes to it. -/
theorem decode_encode {cfg : FrameConfig} (h : admitted cfg = true) {buf : Bytes} {i : Instr}
    (hwf : wellFormed cfg i = true) (hsel : selected cfg buf i = true) : decode cfg buf (encode i) = .ok i := by
  cases i with
  | hdrGeneric d pre len post => exact decodeHeader_genericHeader h hwf
  | hdrDefault len =>
    obtain rfl : cfg = defaultConfig := beq_iff_eq.mp hwf
    exact decodeHeader_defaultHeader len
  | hdrScenario len =>
    obtain rfl : cfg = scenarioConfig := beq_iff_eq.mp hwf
    exact decodeHeader_scenarioHeader len
  | hdrPadded p len q =>
    obtain rfl : cfg = paddedConfig := beq_iff_eq.mp hwf
    exact decodeHeader_paddedHeader p len q
  | configure o => rfl
  | reset => rfl
  | endStream => rfl
  | push b => rfl
  | feed chunk => rfl
  | encode payload => rfl
  | extract => rfl
  | xScan => exact (decode_select h buf).trans (congrArg stepOf (beq_iff_eq.mp hsel))
  | xAlign p => exact (decode_select h buf).trans (congrArg stepOf (beq_iff_eq.mp hsel))
  | xHwait => exact (decode_select h buf).trans (congrArg stepOf (beq_iff_eq.mp hsel))
  | xLen l => exact (decode_select h buf).trans (stepOf_of_lengthRead (beq_iff_eq.mp hsel))
  | xResync l => exact (decode_afterLen h buf).trans (congrArg (stepAfterLen cfg buf) (beq_iff_eq.mp hsel))
  | xBwait =>
    obtain ⟨l, hc⟩ := (selected_xBwait_iff cfg buf).mp hsel
    exact (decode_afterLen h buf).trans (congrArg (stepAfterLen cfg buf) hc)
  | xEmit f =>
    obtain ⟨l, hc, rfl⟩ := (selected_xEmit_iff cfg buf f).mp hsel
    exact (decode_afterLen h buf).trans (congrArg (stepAfterLen cfg buf) hc)
  | bHuntDelim b => exact decode_byteInstr (k := .huntDelim) h hsel
  | bHuntNoise b => exact decode_byteInstr (k := .huntNoise) h hsel
  | bHeaderAcc b => exact decode_byteInstr (k := .headerAcc) h hsel
  | bHeaderLast b => exact decode_byteInstr (k := .headerLast) h hsel
  | bBodyAcc b => exact decode_byteInstr (k := .bodyAcc) h hsel
  | bBodyLast b => exact decode_byteInstr (k := .bodyLast) h hsel

/-- Only the two HUNT rows ask something of their byte (R161, R162). -/
theorem wellFormed_byteInstr {cfg : FrameConfig} (h : admitted cfg = true) {buf : Bytes} {k : ByteKind} {b : Byte}
    (hk : byteKindAt cfg buf b = some k) : wellFormed cfg (byteInstr k b) = true := by
  have hsel := selecting_of_byteKindAt h hk
  cases k with
  | huntDelim => exact beq_iff_eq.mpr hsel.2
  | huntNoise => exact bne_iff_ne.mpr hsel.2
  | headerAcc => rfl
  | headerLast => rfl
  | bodyAcc => rfl
  | bodyLast => rfl

/-- The step a pass starts with (R120): its operand is what the accumulator gives it. -/
theorem stepOf_sound {cfg : FrameConfig} {buf : Bytes} {i : Instr} (hd : stepOf (choose cfg buf) = .ok i) :
    wellFormed cfg i = true ∧ selected cfg buf i = true ∧ encode i = .select := by
  have hselecting := selecting_choose cfg buf
  have readsLength {l : Nat} (hr : lengthRead (choose cfg buf) = some l) :
      wellFormed cfg (.xLen l) = true ∧ selected cfg buf (.xLen l) = true ∧ encode (.xLen l) = .select :=
    ⟨decide_eq_true (lengthAt_le_lrep (lengthAt_of_lengthRead hr).2), beq_iff_eq.mpr hr, rfl⟩
  cases hc : choose cfg buf <;> rw [hc] at hd hselecting readsLength <;> cases hd
  case scan => exact ⟨rfl, beq_iff_eq.mpr hc, rfl⟩
  case align p => exact ⟨decide_eq_true hselecting.1, beq_iff_eq.mpr hc, rfl⟩
  case hwait => exact ⟨rfl, beq_iff_eq.mpr hc, rfl⟩
  case resync l => exact readsLength rfl
  case bwait l => exact readsLength rfl
  case emit l => exact readsLength rfl

/-- The step that follows X.LEN (R124): the length has been judged against `maxLen` and the bytes held. -/
theorem stepAfterLen_sound {cfg : FrameConfig} (h : admitted cfg = true) {buf : Bytes} {i : Instr}
    (hd : stepAfterLen cfg buf (choose cfg buf) = .ok i) :
    wellFormed cfg i = true ∧ selected cfg buf i = true ∧ encode i = .afterLen := by
  have hselecting := selecting_choose cfg buf
  cases hc : choose cfg buf <;> rw [hc] at hd hselecting <;> cases hd
  case resync l =>
    obtain ⟨-, hl, hm⟩ := hselecting
    exact ⟨by simp [wellFormed, hm, lengthAt_le_lrep hl], beq_iff_eq.mpr hc, rfl⟩
  case bwait l => exact ⟨rfl, (selected_xBwait_iff cfg buf).mpr ⟨l, hc⟩, rfl⟩
  case emit l =>
    obtain ⟨hh, hl, hm, hn⟩ := hselecting
    exact ⟨isFrame_take h hh hl hm hn, (selected_xEmit_iff cfg buf _).mpr ⟨l, hc, rfl⟩, rfl⟩

theorem decode_sound {cfg : FrameConfig} (h : admitted cfg = true) {buf : Bytes} {e : Event} {i : Instr}
    (hd : decode cfg buf e = .ok i) : wellFormed cfg i = true ∧ selected cfg buf i = true ∧ encode i = e := by
  cases e with
  | cfg o => cases hd; exact ⟨rfl, rfl, rfl⟩
  | ctlReset => cases hd; exact ⟨rfl, rfl, rfl⟩
  | ctlEnd => cases hd; exact ⟨rfl, rfl, rfl⟩
  | inByte b => cases hd; exact ⟨rfl, rfl, rfl⟩
  | inChunk chunk => cases hd; exact ⟨rfl, rfl, rfl⟩
  | call payload => cases hd; exact ⟨rfl, rfl, rfl⟩
  | header bytes => exact decodeHeader_sound h hd
  | serial b =>
    obtain ⟨k, hk, rfl⟩ := (decode_serial_eq_ok_iff h buf b i).mp hd
    exact ⟨wellFormed_byteInstr h hk, by simp [selected_byteInstr, hk], encode_byteInstr k b⟩
  | run => cases hd; exact ⟨rfl, rfl, rfl⟩
  | select => exact stepOf_sound (decode_select h buf ▸ hd)
  | afterLen => exact stepAfterLen_sound h (decode_afterLen h buf ▸ hd)

/-- Settles O55: one direction goes through the operations, the other through the events; a header is put together again
from the fields of its layout, and the rows that the accumulator selects carry the operands it gives them. -/
theorem decodeInvertsEncode : Obligations.DecodeInvertsEncode := by
  unfold Obligations.DecodeInvertsEncode
  exact fun _ _ h => ⟨fun _ => decode_encode h, fun _ _ => decode_sound h⟩

/-! ### Gates: carried out where selected, refused elsewhere (R81, log 9) -/

/-- Every operation but CONFIGURE stands behind one gate, which asks for its selecting condition (R81, R102). -/
theorem exec_eq_ifSelected {i : Instr} (hi : ∀ o, i ≠ .configure o) (s : State) : ∃ n, exec i s = ifSelected i s n := by
  obtain ⟨e, r, hexec⟩ := exec_delivers hi s
  exact ⟨_, hexec s.diag⟩

theorem exec_of_selected {s : State} (h : admitted s.cfg = true) {i : Instr} (hi : ∀ o, i ≠ .configure o)
    (hsel : selected s.cfg s.buf i = true) : ∃ t, exec i s = .next t := by
  obtain ⟨n, hn⟩ := exec_eq_ifSelected hi s
  exact ⟨n, hn.trans (ifSelected_eq_next_iff.mpr ⟨h, hsel, rfl⟩)⟩

/-- Log 9: where a condition that being selected implies fails, the operation is refused. -/
theorem exec_refused {s : State} (h : admitted s.cfg = true) {i : Instr} (hi : ∀ o, i ≠ .configure o) {P : Prop}
    (hP : selected s.cfg s.buf i = true → P) (hn : ¬ P) : exec i s = .refused .notSelected := by
  obtain ⟨n, hexec⟩ := exec_eq_ifSelected hi s
  rw [hexec, ifSelected, h, if_neg (by decide), if_neg (mt hP hn)]

/-- Settles O58: whatever an event decodes to is selected, and that is all its gate asks. -/
theorem decodedOperationsComplete : Obligations.DecodedOperationsComplete := by
  unfold Obligations.DecodedOperationsComplete
  intro s e i h hd hi
  obtain ⟨-, hsel, -⟩ := decode_sound h hd
  exact exec_of_selected h hi hsel

/-! ### The selecting conditions with the length as the weighted sum (R72, R121 to R127) -/

theorem selecting_of_selected_xScan {cfg : FrameConfig} {buf : Bytes} (hsel : selected cfg buf .xScan = true) :
    buf ≠ [] ∧ cfg.delimiter ∉ buf := selecting_of_choose (beq_iff_eq.mp hsel)

theorem selecting_of_selected_xAlign {cfg : FrameConfig} {buf : Bytes} {p : Nat}
    (hsel : selected cfg buf (.xAlign p) = true) :
    0 < p ∧ buf[p]? = some cfg.delimiter ∧ cfg.delimiter ∉ buf.take p := selecting_of_choose (beq_iff_eq.mp hsel)

theorem selecting_of_selected_xHwait {cfg : FrameConfig} (h : admitted cfg = true) {buf : Bytes}
    (hsel : selected cfg buf .xHwait = true) : buf.head? = some cfg.delimiter ∧ buf.length < headerNeed cfg := by
  obtain ⟨hh, hl⟩ := selecting_of_choose (beq_iff_eq.mp hsel)
  exact ⟨hh, (lengthAt_eq_none_iff h buf).mp hl⟩

theorem selecting_of_selected_xLen {cfg : FrameConfig} (h : admitted cfg = true) {buf : Bytes} {l : Nat}
    (hsel : selected cfg buf (.xLen l) = true) :
    buf.head? = some cfg.delimiter ∧ headerNeed cfg ≤ buf.length ∧ l = lengthFieldSum cfg buf := by
  obtain ⟨hh, hl⟩ := lengthAt_of_lengthRead (beq_iff_eq.mp hsel)
  exact ⟨hh, lengthFieldSum_of_lengthAt h hl⟩

theorem selecting_of_selected_xResync {cfg : FrameConfig} (h : admitted cfg = true) {buf : Bytes} {l : Nat}
    (hsel : selected cfg buf (.xResync l) = true) :
    buf.head? = some cfg.delimiter ∧ headerNeed cfg ≤ buf.length ∧ l = lengthFieldSum cfg buf ∧ cfg.maxLen < l := by
  obtain ⟨hh, hl, hm⟩ := selecting_of_choose (beq_iff_eq.mp hsel)
  obtain ⟨hH, hsum⟩ := lengthFieldSum_of_lengthAt h hl
  exact ⟨hh, hH, hsum, hm⟩

theorem selecting_of_selected_xBwait {cfg : FrameConfig} (h : admitted cfg = true) {buf : Bytes}
    (hsel : selected cfg buf .xBwait = true) :
    buf.head? = some cfg.delimiter ∧ headerNeed cfg ≤ buf.length ∧ lengthFieldSum cfg buf ≤ cfg.maxLen ∧
      buf.length < cfg.packetOverhead + lengthFieldSum cfg buf := by
  obtain ⟨l, hc⟩ := (selected_xBwait_iff cfg buf).mp hsel
  obtain ⟨hh, hl, hm, hn⟩ := selecting_of_choose hc
  obtain ⟨hH, rfl⟩ := lengthFieldSum_of_lengthAt h hl
  exact ⟨hh, hH, hm, hn⟩

theorem selecting_of_selected_xEmit {cfg : FrameConfig} (h : admitted cfg = true) {buf f : Bytes}
    (hsel : selected cfg buf (.xEmit f) = true) :
    buf.head? = some cfg.delimiter ∧ headerNeed cfg ≤ buf.length ∧ lengthFieldSum cfg buf ≤ cfg.maxLen ∧
      cfg.packetOverhead + lengthFieldSum cfg buf ≤ buf.length ∧
      f = buf.take (cfg.packetOverhead + lengthFieldSum cfg buf) := by
  obtain ⟨l, hc, rfl⟩ := (selected_xEmit_iff cfg buf f).mp hsel
  obtain ⟨hh, hl, hm, hn⟩ := selecting_of_choose hc
  obtain ⟨hH, rfl⟩ := lengthFieldSum_of_lengthAt h hl
  exact ⟨hh, hH, hm, hn, rfl⟩

/-- Settles O19: each clause negates what being selected implies, for a step by the branch of the decision tree and for
a transition by the row that the byte takes. -/
theorem operationsStopWhereNotSelected : Obligations.OperationsStopWhereNotSelected := by
  unfold Obligations.OperationsStopWhereNotSelected
  intro s h
  have byByte (k : ByteKind) (b : Byte) (hn : ¬ ByteSelecting s.cfg s.buf b k) :
      exec (byteInstr k b) s = .refused .notSelected :=
    exec_refused h (by cases k <;> nofun) (selecting_of_selected_byteInstr h) hn
  exact ⟨exec_refused h (by nofun) selecting_of_selected_xScan,
    fun p => exec_refused h (by nofun) selecting_of_selected_xAlign,
    exec_refused h (by nofun) (selecting_of_selected_xHwait h),
    fun l => exec_refused h (by nofun) (selecting_of_selected_xLen h),
    fun l => exec_refused h (by nofun) (selecting_of_selected_xResync h),
    exec_refused h (by nofun) (selecting_of_selected_xBwait h),
    fun f => exec_refused h (by nofun) (selecting_of_selected_xEmit h),
    byByte .huntDelim, byByte .huntNoise, byByte .headerAcc, byByte .headerLast, byByte .bodyAcc, byByte .bodyLast⟩

/-! ### The arrival of a header (R70 to R77, log 6) -/

theorem exec_feed {s : State} (h : admitted s.cfg = true) (chunk : Bytes) :
    exec (.feed chunk) s = .next (s.accept chunk) := onInstance_eq_next_iff.mpr ⟨h, rfl⟩

theorem exec_hdrGeneric {s : State} (h : admitted s.cfg = true) (d : Byte) (pre len post : Bytes) :
    exec (.hdrGeneric d pre len post) s = .next (s.accept (genericHeader d pre len post)) :=
  onInstance_eq_next_iff.mpr ⟨h, rfl⟩

theorem exec_hdrDefault {s : State} (h : admitted s.cfg = true) (len : Byte) :
    exec (.hdrDefault len) s = .next (s.accept [0xAA, len]) := onInstance_eq_next_iff.mpr ⟨h, rfl⟩

theorem exec_hdrScenario {s : State} (h : admitted s.cfg = true) (lo hi : Byte) :
    exec (.hdrScenario (hi ++ lo)) s = .next (s.accept [0x69, lo, hi]) :=
  onInstance_eq_next_iff.mpr ⟨h, congrArg s.accept (scenarioHeader_append lo hi)⟩

theorem exec_hdrPadded {s : State} (h : admitted s.cfg = true) (p len q : Byte) :
    exec (.hdrPadded p len q) s = .next (s.accept [0x7E, p, len, q]) := onInstance_eq_next_iff.mpr ⟨h, rfl⟩

/-- Settles O50: a header row and FEED accept the same bytes behind the same gate. -/
theorem headerRowsArriveAsTheirBytes : Obligations.HeaderRowsArriveAsTheirBytes := by
  unfold Obligations.HeaderRowsArriveAsTheirBytes
  intro s h
  refine ⟨fun d pre len post => ⟨_, exec_hdrGeneric h d pre len post, ?_⟩,
    fun len => ⟨_, exec_hdrDefault h len, exec_feed h _⟩,
    fun lo hi => ⟨_, exec_hdrScenario h lo hi, exec_feed h _⟩,
    fun p len q => ⟨_, exec_hdrPadded h p len q, exec_feed h _⟩⟩
  simpa [genericHeader] using exec_feed h ([d] ++ pre ++ len ++ post)

/-- What arrives on an empty accumulator is all there is to extract from. -/
theorem accept_of_nil {s : State} (hbuf : s.buf = []) (bytes : Bytes) :
    s.accept bytes = s.deliver (extract s.cfg bytes) := by rw [State.accept, hbuf, List.nil_append]

theorem accept_of_isFrame {s : State} (h : admitted s.cfg = true) (hbuf : s.buf = []) {f : Bytes}
    (hf : isFrame s.cfg f = true) : s.accept f = { s with out := s.out ++ [f], result := .packets [f] } := by
  rw [accept_of_nil hbuf, extract_of_isFrame h hf, deliver_eq]
  simp [hbuf]

theorem accept_of_normalForm {s : State} (h : admitted s.cfg = true) (hbuf : s.buf = []) {bytes : Bytes}
    (hq : normalForm s.cfg bytes = true) : s.accept bytes = { s with buf := bytes, result := .packets [] } := by
  rw [accept_of_nil hbuf, extract_of_normalForm h hq, deliver_eq]
  simp

/-- The first `packetOverhead` bytes of a frame, whose length field holds `l` (R70 to R72). -/
structure IsHeader (cfg : FrameConfig) (bytes : Bytes) (l : Nat) : Prop where
  head : bytes.head? = some cfg.delimiter
  length : bytes.length = cfg.packetOverhead
  lengthAt : lengthAt cfg bytes = some l

theorem IsLayout.isHeader {cfg : FrameConfig} (h : admitted cfg = true) {pre len post : Bytes}
    (hlay : IsLayout cfg pre len post) : IsHeader cfg (genericHeader cfg.delimiter pre len post) (le len) := by
  refine ⟨rfl, hlay.length _, ?_⟩
  obtain ⟨-, hfield, -⟩ := hlay.slices cfg.delimiter
  rw [lengthAt_eq_some_iff h, hlay.length, hfield]
  exact ⟨headerNeed_le_packetOverhead h, rfl⟩

/-- A bare header is a whole frame (R70, R127). -/
theorem IsHeader.accept_bare {s : State} (h : admitted s.cfg = true) (hbuf : s.buf = []) {bytes : Bytes}
    (hhdr : IsHeader s.cfg bytes 0) : s.accept bytes = { s with out := s.out ++ [bytes], result := .packets [bytes] } :=
  accept_of_isFrame h hbuf ((isFrame_iff bytes).mpr ⟨hhdr.head, 0, hhdr.lengthAt, Nat.zero_le _, hhdr.length⟩)

/-- A header that announces a payload is a candidate in BODY (R126). -/
theorem IsHeader.accept_body {s : State} (h : admitted s.cfg = true) (hbuf : s.buf = []) {bytes : Bytes} {l : Nat}
    (hhdr : IsHeader s.cfg bytes l) (hpos : 0 < l) (hm : l ≤ s.cfg.maxLen) :
    s.accept bytes = { s with buf := bytes, result := .packets [] } ∧ latchedLength s.cfg bytes = some l := by
  obtain ⟨hh, hlen, hl⟩ := hhdr
  have hn : bytes.length < s.cfg.packetOverhead + l := by omega
  refine ⟨accept_of_normalForm h hbuf ((normalForm_iff h _).mpr (.inr ⟨hh, .inr ⟨l, hl, hm, hn⟩⟩)), ?_⟩
  rw [latchedLength, if_pos (phaseOf_eq_body h hh hl hm hn), hl]

/-- A spurious delimiter is reported and dropped, and the scan resumes behind it (R77, R125). -/
theorem extract_of_spurious {cfg : FrameConfig} (h : admitted cfg = true) {d : Byte} {rest : Bytes} {l : Nat}
    (hh : (d :: rest).head? = some cfg.delimiter) (hl : lengthAt cfg (d :: rest) = some l) (hm : cfg.maxLen < l) :
    extract cfg (d :: rest) =
      { extract cfg rest with events := .resync l :: (extract cfg rest).events } := by
  have hc : choose cfg (d :: rest) = .resync l := by
    rw [choose_of_head hh, hl]
    exact if_pos hm
  rw [extract_unfold h, hc]
  rfl

/-- What follows a spurious delimiter is taken as if it had just arrived (R77, R125). -/
theorem accept_of_spurious {s : State} (h : admitted s.cfg = true) (hbuf : s.buf = []) {d : Byte} {rest : Bytes} {l : Nat}
    (hh : (d :: rest).head? = some s.cfg.delimiter) (hl : lengthAt s.cfg (d :: rest) = some l) (hm : s.cfg.maxLen < l) :
    s.accept (d :: rest) = (s.emitDiag (.resync l)).accept rest := by
  rw [accept_of_nil hbuf, accept_of_nil (s := s.emitDiag _) hbuf, extract_of_spurious h hh hl hm]
  simp [deliver_eq, State.emitDiag]

/-- Settles O51: the three ranges of the length are the bare frame, the wait for the body and the resync, whatever the PAD
bytes hold. -/
theorem genericHeaderArrival : Obligations.GenericHeaderArrival := by
  unfold Obligations.GenericHeaderArrival
  intro s pre len post h hbuf hpre hlen hpost
  have hhdr := (IsLayout.mk hpre hlen hpost).isHeader h
  have hexec := exec_hdrGeneric h s.cfg.delimiter pre len post
  refine ⟨fun hzero => ?_, fun hpos hm => ?_, fun hm => ?_⟩
  · rw [hzero] at hhdr
    exact hexec.trans (congrArg _ (hhdr.accept_bare h hbuf))
  · obtain ⟨haccept, hlatched⟩ := hhdr.accept_body h hbuf hpos hm
    exact ⟨hexec.trans (congrArg _ haccept), hlatched⟩
  · have haccept := accept_of_spurious h hbuf hhdr.head hhdr.lengthAt hm
    exact ⟨_, hexec.trans (congrArg _ haccept), exec_feed (s := s.emitDiag _) h (pre ++ len ++ post)⟩

/-! ### The headers of the three named configurations (R73, R74, R82) -/

/-- A spurious header whose rest is shorter than a header: what is left is the rest from its first delimiter on. -/
theorem extract_of_spurious_short {cfg : FrameConfig} (h : admitted cfg = true) {d : Byte} {rest : Bytes} {l : Nat}
    (hh : (d :: rest).head? = some cfg.delimiter) (hl : lengthAt cfg (d :: rest) = some l) (hm : cfg.maxLen < l)
    (hlt : rest.length < headerNeed cfg) :
    extract cfg (d :: rest) = ⟨(find rest cfg.delimiter).elim [] rest.drop, [], [.resync l]⟩ := by
  rw [extract_of_spurious h hh hl hm, extract_of_short h hlt]

/-- Noise at the front is discarded (R78, R121, R122). -/
theorem extract_cons_of_ne {cfg : FrameConfig} (h : admitted cfg = true) {b : Byte} (hb : b ≠ cfg.delimiter)
    (buf : Bytes) : extract cfg (b :: buf) = extract cfg buf := by
  cases hf : find buf cfg.delimiter with
  | none =>
    have hc : choose cfg (b :: buf) = .scan := choose_of_find_none (by simp) (by simp [find, hb, hf])
    rw [extract_unfold h (b :: buf), hc]
    rcases eq_or_ne buf [] with rfl | h0
    · rfl
    · rw [extract_unfold h buf, choose_of_find_none h0 hf]
  | some q =>
    have hc : choose cfg (b :: buf) = .align (q + 1) := choose_of_find_pos (by simp [find, hb, hf]) q.succ_pos
    rw [extract_unfold h (b :: buf), hc]
    rcases Nat.eq_zero_or_pos q with rfl | hq
    · rfl
    · rw [extract_unfold h buf, choose_of_find_pos hf hq]
      rfl

theorem find_pair (a b d : Byte) :
    (find [a, b] d).elim [] [a, b].drop = if a = d then [a, b] else if b = d then [b] else [] := by
  by_cases ha : a = d
  · simp [find, ha]
  · by_cases hb : b = d <;> simp [find, ha, hb]

theorem isHeader_default (len : Byte) : IsHeader defaultConfig [0xAA, len] len.toNat :=
  IsLayout.isHeader (cfg := defaultConfig) (pre := []) (len := [len]) (post := []) rfl ⟨rfl, rfl, rfl⟩

theorem isHeader_scenario (lo hi : Byte) : IsHeader scenarioConfig [0x69, lo, hi] (lo.toNat + 256 * hi.toNat) :=
  IsLayout.isHeader (cfg := scenarioConfig) (pre := []) (len := [lo, hi]) (post := []) rfl ⟨rfl, rfl, rfl⟩

theorem isHeader_padded (p len q : Byte) : IsHeader paddedConfig [0x7E, p, len, q] len.toNat :=
  IsLayout.isHeader (cfg := paddedConfig) (pre := [p]) (len := [len]) (post := [q]) rfl ⟨rfl, rfl, rfl⟩

/-- Settles O52: one byte holds no length above 255. -/
theorem defaultHeaderArrival : Obligations.DefaultHeaderArrival := by
  unfold Obligations.DefaultHeaderArrival
  intro s len hcfg hbuf
  have h : admitted s.cfg = true := by rw [hcfg]; rfl
  have hhdr : IsHeader s.cfg [0xAA, len] len.toNat := hcfg ▸ isHeader_default len
  refine ⟨?_, fun hne => ?_⟩
  · rintro rfl
    rw [exec_hdrDefault h, hhdr.accept_bare h hbuf]
  · have hm : len.toNat ≤ s.cfg.maxLen := by rw [hcfg]; exact Nat.le_of_lt_succ len.isLt
    obtain ⟨haccept, hlatched⟩ := hhdr.accept_body h hbuf (BitVec.toNat_pos_of_ne_zero hne) hm
    exact ⟨by rw [exec_hdrDefault h, haccept], hlatched⟩

/-- Settles O53: the length is above 255 exactly where its high byte is not 00, and two bytes are no header. -/
theorem scenarioHeaderArrival : Obligations.ScenarioHeaderArrival := by
  unfold Obligations.ScenarioHeaderArrival
  intro s lo hi hcfg hbuf
  have h : admitted s.cfg = true := by rw [hcfg]; rfl
  have hhdr : IsHeader s.cfg [0x69, lo, hi] (lo.toNat + 256 * hi.toNat) := hcfg ▸ isHeader_scenario lo hi
  refine ⟨?_, ?_, fun hne => ?_⟩
  · rintro rfl rfl
    rw [exec_hdrScenario h, hhdr.accept_bare h hbuf]
  · rintro hne rfl
    have hm : lo.toNat ≤ s.cfg.maxLen := by rw [hcfg]; exact Nat.le_of_lt_succ lo.isLt
    obtain ⟨haccept, hlatched⟩ := hhdr.accept_body h hbuf (BitVec.toNat_pos_of_ne_zero hne) hm
    exact ⟨by rw [exec_hdrScenario h, haccept], hlatched⟩
  · have hpos := BitVec.toNat_pos_of_ne_zero hne
    have hm : s.cfg.maxLen < lo.toNat + 256 * hi.toNat := by rw [hcfg]; dsimp only; omega
    have hlt : [lo, hi].length < headerNeed s.cfg := by rw [hcfg]; exact Nat.lt_succ_self 2
    rw [exec_hdrScenario h, accept_of_nil hbuf, extract_of_spurious_short h hhdr.head hhdr.lengthAt hm hlt, find_pair,
      deliver_eq, hcfg]
    simp

/-- The three bytes behind a spurious delimiter of configuration `P`: a delimiter in front reads `q` as a length (R125). -/
theorem extract_padded_rest (p len q : Byte) :
    extract paddedConfig [p, len, q] =
      ⟨if p = 0x7E ∧ q.toNat ≤ 16 then [p, len, q] else if len = 0x7E then [len, q]
          else if q = 0x7E then [q] else [], [],
        if p = 0x7E ∧ 16 < q.toNat then [.resync q.toNat] else []⟩ := by
  have h : admitted paddedConfig = true := rfl
  have hshort : [len, q].length < headerNeed paddedConfig := by simp [headerNeed, paddedConfig]
  have hpair : (find [len, q] paddedConfig.delimiter).elim [] [len, q].drop =
      if len = 0x7E then [len, q] else if q = 0x7E then [q] else [] := find_pair len q 0x7E
  by_cases hp : p = 0x7E
  · subst hp
    have hh : [0x7E, len, q].head? = some paddedConfig.delimiter := rfl
    have hl : lengthAt paddedConfig [0x7E, len, q] = some q.toNat := rfl
    by_cases hm : 16 < q.toNat
    · rw [extract_of_spurious_short h hh hl hm hshort, hpair]
      simp [hm, Nat.not_le.mpr hm]
    · have hn : [0x7E, len, q].length < paddedConfig.packetOverhead + q.toNat := by simp [paddedConfig]; omega
      rw [extract_of_normalForm h ((normalForm_iff h _).mpr (.inr ⟨hh, .inr ⟨_, hl, Nat.not_lt.mp hm, hn⟩⟩))]
      simp [hm, Nat.not_lt.mp hm]
  · have hno (P : Prop) : ¬ (p = 0x7E ∧ P) := fun hc => hp hc.1
    rw [extract_cons_of_ne h hp, extract_of_short h hshort, hpair, if_neg (hno _), if_neg (hno _)]

/-- Settles O54: the PAD bytes are looked at only behind a spurious delimiter, as bytes that have just arrived. -/
theorem paddedHeaderArrival : Obligations.PaddedHeaderArrival := by
  unfold Obligations.PaddedHeaderArrival
  intro s p len q hcfg hbuf
  have h : admitted s.cfg = true := by rw [hcfg]; rfl
  have hhdr : IsHeader s.cfg [0x7E, p, len, q] len.toNat := hcfg ▸ isHeader_padded p len q
  have hmax : s.cfg.maxLen = 16 := by rw [hcfg]
  refine ⟨?_, fun hne hm => ?_, fun hm => ?_⟩
  · rintro rfl
    rw [exec_hdrPadded h, hhdr.accept_bare h hbuf]
  · obtain ⟨haccept, hlatched⟩ := hhdr.accept_body h hbuf (BitVec.toNat_pos_of_ne_zero hne) (hmax ▸ hm)
    exact ⟨by rw [exec_hdrPadded h, haccept], hlatched⟩
  · have hrest : extract s.cfg [p, len, q] = extract paddedConfig [p, len, q] := by rw [hcfg, paddedConfig]
    rw [exec_hdrPadded h, accept_of_nil hbuf, extract_of_spurious h hhdr.head hhdr.lengthAt (hmax ▸ hm), hrest,
      extract_padded_rest, deliver_eq]
    simp

/-! ### The words of the table (log 7) -/

/-- Settles O56: each word is split into its bytes and decoded under the configuration of its width. -/
theorem tableWordsDecode : Obligations.TableWordsDecode := by
  unfold Obligations.TableWordsDecode
  decide

end Sys2Proof.Machine
end

section
/-! PROOFS. The family of 40_configuration.md: the two checks in their order and what CONFIGURE makes of them (R100, R101),
the configurations that have no step (R102), and that nothing else writes the configuration (R104). -/

namespace Sys2Proof.Machine

/-! ### The configuration is never written (R104) -/

/-- An operation other than CONFIGURE delivers an extraction and a result, and delivering keeps the configuration. -/
theorem exec_cfg {i : Instr} (hi : ∀ o, i ≠ .configure o) {s t : State} (h : exec i s = .next t) : t.cfg = s.cfg := by
  obtain ⟨e, r, hexec⟩ := exec_delivers hi s
  obtain ⟨-, -, rfl⟩ := ifSelected_eq_next_iff.mp ((hexec s.diag).symm.trans h)
  rfl

/-- Settles O4: a CONFIGURE raises, which keeps the configuration, or makes a new decoder, which is the exception; the
other operations deliver. -/
theorem configurationNeverChanges : Obligations.ConfigurationNeverChanges := by
  unfold Obligations.ConfigurationNeverChanges
  intro i s t h hex
  by_cases hi : ∃ o, i = .configure o
  · obtain ⟨o, rfl⟩ := hi
    rcases exec_configure_next h with ⟨cause, rfl⟩ | ⟨-, rfl⟩
    · rfl
    · rcases hex with hnew | hconf
      · exact absurd rfl hnew
      · exact absurd rfl (hconf o)
  · exact exec_cfg (fun o ho => hi ⟨o, ho⟩) h

/-! ### Validate: the first check that fails (R101) -/

theorem validate_of_lengthBytes_range {cfg : FrameConfig} (h : cfg.lengthBytes < 1 ∨ 4 < cfg.lengthBytes) :
    validate cfg = some .lengthBytesRange := if_pos h

theorem validate_of_lengthBytes_fits {cfg : FrameConfig} (h1 : 1 ≤ cfg.lengthBytes) (h4 : cfg.lengthBytes ≤ 4) :
    validate cfg =
      if cfg.packetOverhead < cfg.lengthOffset + cfg.lengthBytes then some .fieldExceedsHeader else none :=
  if_neg (by omega)

theorem validate_of_field_exceeds {cfg : FrameConfig} (h1 : 1 ≤ cfg.lengthBytes) (h4 : cfg.lengthBytes ≤ 4)
    (h : cfg.packetOverhead < cfg.lengthOffset + cfg.lengthBytes) : validate cfg = some .fieldExceedsHeader :=
  (validate_of_lengthBytes_fits h1 h4).trans (if_pos h)

theorem validate_of_field_fits {cfg : FrameConfig} (h1 : 1 ≤ cfg.lengthBytes) (h4 : cfg.lengthBytes ≤ 4)
    (h : cfg.lengthOffset + cfg.lengthBytes ≤ cfg.packetOverhead) : validate cfg = none :=
  (validate_of_lengthBytes_fits h1 h4).trans (if_neg (Nat.not_lt.mpr h))

/-! ### What CONFIGURE makes of the checks (R100 to R102, R187) -/

theorem exec_configure_of_validate_some {o : Options} {cause : ConfigCause}
    (hv : validate (fillDefaults o) = some cause) (s : State) :
    exec (.configure o) s = .next { s with result := .raised (.configError cause) } := by
  simp only [exec, execConfigure, hv, takeCondition_configError]

theorem exec_configure_of_validate_none {o : Options} (hv : validate (fillDefaults o) = none) (s : State) :
    exec (.configure o) s =
      if admitted (fillDefaults o) then .next (s.constructed (fillDefaults o)) else .refused .notAdmitted := by
  simp only [exec, execConfigure, hv]

/-- Settles O1: the conditions are the two checks passed and an admitted configuration. -/
theorem configureCreatesFreshInstance : Obligations.ConfigureCreatesFreshInstance := by
  unfold Obligations.ConfigureCreatesFreshInstance
  intro o s c hc h1 h4 hoff hfit
  obtain rfl : c = fillDefaults o := hc
  have hadm : admitted (fillDefaults o) = true := (admitted_iff _).mpr ⟨h1, h4, hoff, hfit⟩
  rw [exec_configure_of_validate_none (validate_of_field_fits h1 h4 hfit), if_pos hadm, State.constructed]

/-- Settles O2: where a check fails its cause is raised; where both pass CONFIGURE makes a decoder or is refused. -/
theorem configureReportsFirstFailedCheck : Obligations.ConfigureReportsFirstFailedCheck := by
  unfold Obligations.ConfigureReportsFirstFailedCheck
  intro o s c hc
  obtain rfl : c = fillDefaults o := hc
  refine ⟨fun hrange => ?_, fun h1 h4 hexc => ?_, fun h1 h4 hfit t cause h => ?_⟩
  · exact exec_configure_of_validate_some (validate_of_lengthBytes_range hrange) s
  · exact exec_configure_of_validate_some (validate_of_field_exceeds h1 h4 hexc) s
  · rw [exec_configure_of_validate_none (validate_of_field_fits h1 h4 hfit)] at h
    split at h
    · obtain rfl := Host.Outcome.next.inj h
      exact nofun
    · cases h

/-! ### Without an admitted configuration there is no step (R102) -/

theorem ifSelected_of_not_admitted {i : Instr} {s : State} (h : admitted s.cfg = false) (n : State) :
    ifSelected i s n = .refused .notAdmitted := if_pos (by rw [h]; rfl)

/-- R102: with `lengthOffset = 0` both checks can pass, and the configuration is still not admitted. -/
theorem not_admitted_of_lengthOffset_zero {cfg : FrameConfig} (h : cfg.lengthOffset = 0) : ¬ admitted cfg = true := by
  rw [admitted_iff]
  omega

/-- Settles O3: a length field that starts on the delimiter passes both checks and is not admitted, and the gate of every
other operation asks for an admitted configuration first. -/
theorem unadmittedConfigurationHasNoStep : Obligations.UnadmittedConfigurationHasNoStep := by
  unfold Obligations.UnadmittedConfigurationHasNoStep
  refine ⟨fun c => ?_, fun c h => ?_, fun o s hzero h1 h4 hfit => ?_, fun i s hi h => ?_⟩
  · rw [admitted_iff]
    omega
  · exact ⟨two_le_headerNeed h, (two_le_headerNeed h).trans (headerNeed_le_packetOverhead h)⟩
  · have hoff : (fillDefaults o).lengthOffset = 0 := by rw [fillDefaults, hzero]; rfl
    have hv : validate (fillDefaults o) = none :=
      validate_of_field_fits h1 h4 (by rw [hoff, Nat.zero_add]; exact hfit)
    rw [exec_configure_of_validate_none hv, if_neg (not_admitted_of_lengthOffset_zero hoff)]
  · obtain ⟨n, hexec⟩ := exec_eq_ifSelected hi s
    rw [hexec, ifSelected_of_not_admitted h]

end Sys2Proof.Machine
end

section
/-! PROOFS. The family of 41_decoder_host_ops.md: RESET and END (R111, R112), PUSH and FEED (R113 to R115), and what they
deliver (R116). -/

namespace Sys2Proof.Machine

/-! ### The operations on an admitted decoder (R111 to R114) -/

theorem exec_reset {s : State} (h : admitted s.cfg = true) : exec .reset s = .next s.cleared :=
  onInstance_eq_next_iff.mpr ⟨h, rfl⟩

theorem exec_endStream {s : State} (h : admitted s.cfg = true) : exec .endStream s = .next s.cleared :=
  onInstance_eq_next_iff.mpr ⟨h, rfl⟩

theorem exec_push {s : State} (h : admitted s.cfg = true) (b : Byte) : exec (.push b) s = .next (s.accept [b]) :=
  onInstance_eq_next_iff.mpr ⟨h, rfl⟩

theorem cleared_eq (s : State) : s.cleared = { s with buf := [], result := .packets [] } := rfl

/-- On a quiescent decoder there is nothing to extract before further bytes arrive (R115, R129). -/
theorem accept_nil_of_quiescent {s : State} (hq : s.Quiescent) : s.accept [] = { s with result := .packets [] } := by
  obtain ⟨hadm, hnormal⟩ := hq
  rw [State.accept, List.append_nil, extract_of_normalForm hadm hnormal, deliver_eq]
  simp

/-! ### What is delivered (R70, R116) -/

/-- A frame carries its own length: the header, and behind it a payload of as many bytes as the length field says (R70). -/
theorem isFrame_layout {cfg : FrameConfig} (h : admitted cfg = true) {f : Bytes} (hf : isFrame cfg f = true) :
    f.head? = some cfg.delimiter ∧ f.length = cfg.packetOverhead + lengthFieldSum cfg f ∧
      (f.drop cfg.packetOverhead).length = lengthFieldSum cfg f := by
  obtain ⟨hhead, l, hl, -, hlen⟩ := (isFrame_iff f).mp hf
  obtain ⟨-, rfl⟩ := lengthFieldSum_of_lengthAt h hl
  exact ⟨hhead, hlen, by rw [List.length_drop, hlen, Nat.add_sub_cancel_left]⟩

/-- PUSH and FEED differ only in the bytes that arrive (R113, R114). -/
theorem exec_eq_accept {i : Instr} {s : State} (h : admitted s.cfg = true)
    (hi : (∃ b, i = .push b) ∨ ∃ chunk, i = .feed chunk) : ∃ bytes, exec i s = .next (s.accept bytes) := by
  rcases hi with ⟨b, rfl⟩ | ⟨chunk, rfl⟩
  · exact ⟨[b], exec_push h b⟩
  · exact ⟨chunk, exec_feed h chunk⟩

/-- Settles O9: what the arriving bytes make of `out` and of the result is one and the same list, the packets of EXTRACT,
and those are whole frames from whatever accumulator it starts. -/
theorem deliveryIsExactAndWhole : Obligations.DeliveryIsExactAndWhole := by
  unfold Obligations.DeliveryIsExactAndWhole
  intro i s h hi
  obtain ⟨bytes, hexec⟩ := exec_eq_accept h hi
  have hframes := (extract_sound h (s.buf ++ bytes)).frames
  exact ⟨s.accept bytes, _, hexec, s.accept_result bytes, s.accept_out bytes,
    fun f hf => isFrame_layout h (List.all_eq_true.mp hframes f hf)⟩

/-- Settles O8: appending nothing leaves the normal form, on which the loop exits at once. -/
theorem emptyFeedIsNoOperation : Obligations.EmptyFeedIsNoOperation := by
  unfold Obligations.EmptyFeedIsNoOperation
  intro s hq
  rw [exec_feed hq.1, accept_nil_of_quiescent hq]

/-- Settles O5: both clear the accumulator behind the same gate, and the empty accumulator is in HUNT. -/
theorem resetAndEndEmptyAccumulator : Obligations.ResetAndEndEmptyAccumulator := by
  unfold Obligations.ResetAndEndEmptyAccumulator
  intro s h
  rw [exec_reset h, exec_endStream h, cleared_eq]
  exact ⟨rfl, rfl, phaseOf_nil s.cfg⟩

/-- Settles O7: FEED accepts its chunk, and to accept is to deliver what EXTRACT makes of the longer accumulator. -/
theorem feedRunsExtraction : Obligations.FeedRunsExtraction := by
  unfold Obligations.FeedRunsExtraction
  intro chunk s h
  rw [exec_feed h, State.accept, deliver_eq]

/-- Settles O6: PUSH accepts what FEED of the one-byte chunk accepts, so its next state is that of O7. -/
theorem pushRunsExtraction : Obligations.PushRunsExtraction := by
  unfold Obligations.PushRunsExtraction
  intro b s h
  have hfeed : exec (.push b) s = exec (.feed [b]) s := (exec_push h b).trans (exec_feed h [b]).symm
  exact ⟨hfeed.trans (feedRunsExtraction [b] s h), hfeed, memWrite_end s.buf b⟩

end Sys2Proof.Machine
end

section
/-! PROOFS. The family of 42_decoder_extraction.md: EXTRACT as its decision tree and as a run of its steps (R120 to
R129, R142), streams cut into chunks (R131), the encoder's frames, alone, one behind the other, behind garbage and in two
parts (R135 to R139), the fate of every byte (R132, R133), and a single PUSH (R134). -/

namespace Sys2Proof.Machine

/-! ### The branch a pass takes is the one whose selecting condition holds (R120, R142) -/

theorem choose_of_selecting {cfg : FrameConfig} {buf : Bytes} {c : Choice} (hc : StepSelecting cfg buf c) :
    choose cfg buf = c := by
  cases c with
  | empty => exact hc ▸ choose_nil cfg
  | scan => exact choose_of_find_none hc.1 ((find_eq_none_iff _ _).mpr hc.2)
  | align p => exact choose_of_find_pos ((find_eq_some_iff _ _ _).mpr hc.2) hc.1
  | hwait =>
    obtain ⟨hh, hl⟩ := hc
    rw [choose_of_head hh, hl]
  | resync l =>
    obtain ⟨hh, hl, hm⟩ := hc
    rw [choose_of_head hh, hl]
    exact if_pos hm
  | bwait l =>
    obtain ⟨hh, hl, hm, hn⟩ := hc
    rw [choose_of_head hh, hl]
    exact (if_neg (Nat.not_lt.mpr hm)).trans (if_pos hn)
  | emit l =>
    obtain ⟨hh, hl, hm, hn⟩ := hc
    rw [choose_of_head hh, hl]
    exact (if_neg (Nat.not_lt.mpr hm)).trans (if_neg (Nat.not_lt.mpr hn))

theorem choose_eq_iff {cfg : FrameConfig} {buf : Bytes} {c : Choice} : choose cfg buf = c ↔ StepSelecting cfg buf c :=
  ⟨selecting_of_choose, choose_of_selecting⟩

/-! ### One equation per branch of the loop (R120 to R127) -/

theorem extract_of_scan {cfg : FrameConfig} (h : admitted cfg = true) {buf : Bytes} (hc : choose cfg buf = .scan) :
    extract cfg buf = ⟨[], [], []⟩ := by rw [extract_unfold h, hc, extract_nil]

theorem extract_of_align {cfg : FrameConfig} (h : admitted cfg = true) {buf : Bytes} {p : Nat}
    (hc : choose cfg buf = .align p) : extract cfg buf = extract cfg (buf.drop p) := by rw [extract_unfold h, hc]

theorem extract_of_resync {cfg : FrameConfig} (h : admitted cfg = true) {buf : Bytes} {l : Nat}
    (hc : choose cfg buf = .resync l) :
    extract cfg buf = { extract cfg (buf.drop 1) with events := .resync l :: (extract cfg (buf.drop 1)).events } := by
  rw [extract_unfold h, hc]

theorem extract_of_emit {cfg : FrameConfig} (h : admitted cfg = true) {buf : Bytes} {l : Nat}
    (hc : choose cfg buf = .emit l) :
    extract cfg buf =
      { extract cfg (buf.drop (cfg.packetOverhead + l)) with
        packets := buf.take (cfg.packetOverhead + l) :: (extract cfg (buf.drop (cfg.packetOverhead + l))).packets } := by
  rw [extract_unfold h, hc]

/-- Where the loop exits, nothing is taken from the accumulator (R120, R129). -/
theorem extract_of_exit {cfg : FrameConfig} (h : admitted cfg = true) {buf : Bytes}
    (hc : choose cfg buf = .empty ∨ choose cfg buf = .hwait ∨ ∃ l, choose cfg buf = .bwait l) :
    extract cfg buf = ⟨buf, [], []⟩ := extract_of_normalForm h ((normalForm_iff_choose h buf).mpr hc)

/-- Settles O10: the hypotheses of each clause are the selecting condition of its branch. -/
theorem extractFollowsDecisionTree : Obligations.ExtractFollowsDecisionTree := by
  unfold Obligations.ExtractFollowsDecisionTree
  intro c buf h
  refine ⟨?_, fun h0 hd => extract_of_scan h (choose_of_selecting ⟨h0, hd⟩),
    fun p hp hat hbefore => extract_of_align h (choose_of_selecting ⟨hp, hat, hbefore⟩),
    fun hh => ⟨fun hlt => ?_, fun hH => ?_⟩⟩
  · rintro rfl
    exact extract_nil c
  · exact extract_of_exit h (.inr (.inl (choose_of_selecting ⟨hh, (lengthAt_eq_none_iff h buf).mpr hlt⟩)))
  · have hl := lengthAt_eq_lengthFieldSum h hH
    exact ⟨fun hm => extract_of_resync h (choose_of_selecting ⟨hh, hl, hm⟩),
      fun hm hn => extract_of_exit h (.inr (.inr ⟨_, choose_of_selecting ⟨hh, hl, hm, hn⟩⟩)),
      fun hm hn => extract_of_emit h (choose_of_selecting ⟨hh, hl, hm, hn⟩)⟩

/-- Settles O22: the normal form is what the passes end in, and where it holds the loop exits at once. -/
theorem extractReachesNormalForm : Obligations.ExtractReachesNormalForm := by
  unfold Obligations.ExtractReachesNormalForm
  exact fun c buf h => ⟨(extract_sound h buf).normal, extract_of_normalForm h⟩

/-- The induction over the passes of the loop, each of which shortens the accumulator (R120, R128). -/
theorem extract_induction {cfg : FrameConfig} (h : admitted cfg = true) {motive : Bytes → Prop}
    (exits : ∀ buf, normalForm cfg buf = true → motive buf)
    (scan : ∀ buf, choose cfg buf = .scan → motive buf)
    (align : ∀ buf p, choose cfg buf = .align p → motive (buf.drop p) → motive buf)
    (resync : ∀ buf l, choose cfg buf = .resync l → motive (buf.drop 1) → motive buf)
    (emit : ∀ buf l, choose cfg buf = .emit l → motive (buf.drop (cfg.packetOverhead + l)) → motive buf)
    (buf : Bytes) : motive buf := by
  have h2 := two_le_headerNeed h
  have hpo := headerNeed_le_packetOverhead h
  have again (j : Nat) (hj : 0 < j) (h0 : buf ≠ []) : motive (buf.drop j) :=
    have := List.length_pos_iff.mpr h0
    extract_induction h exits scan align resync emit (buf.drop j)
  have hquiet := normalForm_iff_choose h buf
  cases hc : choose cfg buf with
  | empty => exact exits buf (hquiet.mpr (.inl hc))
  | scan => exact scan buf hc
  | align p =>
    refine align buf p hc (again p (selecting_of_choose hc).1 ?_)
    rintro rfl
    cases hc
  | hwait => exact exits buf (hquiet.mpr (.inr (.inl hc)))
  | resync l =>
    refine resync buf l hc (again 1 Nat.one_pos ?_)
    rintro rfl
    cases hc
  | bwait l => exact exits buf (hquiet.mpr (.inr (.inr ⟨l, hc⟩)))
  | emit l =>
    refine emit buf l hc (again _ (by omega) ?_)
    rintro rfl
    cases hc
termination_by buf.length
decreasing_by simp only [List.length_drop]; omega

/-! ### EXTRACT and its steps as operations (R120 to R127) -/

theorem exec_xScan {s : State} (h : admitted s.cfg = true) (hc : choose s.cfg s.buf = .scan) :
    exec .xScan s = .next { s with buf := [] } :=
  ifSelected_eq_next_iff.mpr ⟨h, beq_iff_eq.mpr hc, congrArg s.withBuf List.drop_length⟩

theorem exec_xAlign {s : State} (h : admitted s.cfg = true) {p : Nat} (hc : choose s.cfg s.buf = .align p) :
    exec (.xAlign p) s = .next { s with buf := s.buf.drop p } :=
  ifSelected_eq_next_iff.mpr ⟨h, beq_iff_eq.mpr hc, rfl⟩

theorem exec_xHwait {s : State} (h : admitted s.cfg = true) (hc : choose s.cfg s.buf = .hwait) :
    exec .xHwait s = .next s := ifSelected_eq_next_iff.mpr ⟨h, beq_iff_eq.mpr hc, rfl⟩

theorem exec_xLen {s : State} (h : admitted s.cfg = true) {l : Nat} (hl : lengthRead (choose s.cfg s.buf) = some l) :
    exec (.xLen l) s = .next s := ifSelected_eq_next_iff.mpr ⟨h, beq_iff_eq.mpr hl, rfl⟩

theorem exec_xResync {s : State} (h : admitted s.cfg = true) {l : Nat} (hc : choose s.cfg s.buf = .resync l) :
    exec (.xResync l) s = .next { s with buf := s.buf.drop 1, diag := s.diag ++ [.resync l] } :=
  ifSelected_eq_next_iff.mpr ⟨h, beq_iff_eq.mpr hc, rfl⟩

theorem exec_xBwait {s : State} (h : admitted s.cfg = true) {l : Nat} (hc : choose s.cfg s.buf = .bwait l) :
    exec .xBwait s = .next s := ifSelected_eq_next_iff.mpr ⟨h, (selected_xBwait_iff _ _).mpr ⟨l, hc⟩, rfl⟩

theorem exec_xEmit {s : State} (h : admitted s.cfg = true) {l : Nat} (hc : choose s.cfg s.buf = .emit l) :
    exec (.xEmit (s.buf.take (s.cfg.packetOverhead + l))) s =
      .next { s with buf := s.buf.drop (s.cfg.packetOverhead + l),
                     out := s.out ++ [s.buf.take (s.cfg.packetOverhead + l)] } := by
  obtain ⟨-, -, -, hn⟩ := selecting_of_choose hc
  refine ifSelected_eq_next_iff.mpr ⟨h, (selected_xEmit_iff _ _ _).mpr ⟨l, hc, rfl⟩, ?_⟩
  rw [List.length_take_of_le hn]
  rfl

/-- Settles O11: EXTRACT has no selecting condition, and what it returns is the pair of lists that the loop collects. -/
theorem extractWritesBufferAndReturns : Obligations.ExtractWritesBufferAndReturns := by
  unfold Obligations.ExtractWritesBufferAndReturns
  exact fun s h => onInstance_eq_next_iff.mpr ⟨h, rfl⟩

/-- Settles O12: the hypotheses are the selecting condition, and all of the buffer is dropped. -/
theorem scanDiscardsAll : Obligations.ScanDiscardsAll := by
  unfold Obligations.ScanDiscardsAll
  exact fun s h h0 hd => exec_xScan h (choose_of_selecting ⟨h0, hd⟩)

/-- Settles O13: the hypotheses are the selecting condition, and what is dropped ends where the delimiter stands. -/
theorem alignDiscardsNoise : Obligations.AlignDiscardsNoise := by
  unfold Obligations.AlignDiscardsNoise
  exact fun s p h hp hat hbefore => ⟨exec_xAlign h (choose_of_selecting ⟨hp, hat, hbefore⟩), List.head?_drop.trans hat⟩

/-- Settles O14: without a length the loop exits, and the phase is HEADER. -/
theorem headerWaitWritesNothing : Obligations.HeaderWaitWritesNothing := by
  unfold Obligations.HeaderWaitWritesNothing
  intro s h hh hlt
  have hc : choose s.cfg s.buf = .hwait := choose_of_selecting ⟨hh, (lengthAt_eq_none_iff h _).mpr hlt⟩
  have hph := phaseOf_eq_header h hh hlt
  exact ⟨exec_xHwait h hc, extract_of_exit h (.inr (.inl hc)), hph, by simp [needOf, hph]⟩

/-- A complete length field is read, whatever is made of the length (R124). -/
theorem lengthRead_of_head {cfg : FrameConfig} {buf : Bytes} {l : Nat} (hh : buf.head? = some cfg.delimiter)
    (hl : lengthAt cfg buf = some l) : lengthRead (choose cfg buf) = some l := by
  rw [choose_of_head hh, hl]
  dsimp only
  split
  · rfl
  · split <;> rfl

/-- Settles O15: where the header is complete MemRead gives the weighted sum, and X.LEN is selected whatever is made of
that. -/
theorem lengthReadIsWeightedSum : Obligations.LengthReadIsWeightedSum := by
  unfold Obligations.LengthReadIsWeightedSum
  intro s h hh hH
  have hl := lengthAt_eq_lengthFieldSum h hH
  exact ⟨exec_xLen h (lengthRead_of_head hh hl), hl, lengthAt_le_lrep hl⟩

/-- Settles O16: the hypotheses are the selecting condition, with the length as the weighted sum. -/
theorem resyncDropsOneByte : Obligations.ResyncDropsOneByte := by
  unfold Obligations.ResyncDropsOneByte
  exact fun s h hh hH hm => exec_xResync h (choose_of_selecting ⟨hh, lengthAt_eq_lengthFieldSum h hH, hm⟩)

/-- Settles O17: with a valid length and an incomplete frame the loop exits, and the phase is BODY. -/
theorem bodyWaitWritesNothing : Obligations.BodyWaitWritesNothing := by
  unfold Obligations.BodyWaitWritesNothing
  intro s h hh hH hm hn
  have hl := lengthAt_eq_lengthFieldSum h hH
  have hc := choose_of_selecting (c := .bwait _) ⟨hh, hl, hm, hn⟩
  have hph := phaseOf_eq_body h hh hl hm hn
  exact ⟨exec_xBwait h hc, extract_of_exit h (.inr (.inr ⟨_, hc⟩)), hph, by simp [needOf, latchedLength, hph, hl]⟩

/-- Settles O18: the hypotheses are the selecting condition, and as many bytes are dropped as are emitted. -/
theorem emitDeliversWholeFrame : Obligations.EmitDeliversWholeFrame := by
  unfold Obligations.EmitDeliversWholeFrame
  rintro s _ h hh hH hm rfl hn
  exact exec_xEmit h (choose_of_selecting ⟨hh, lengthAt_eq_lengthFieldSum h hH, hm, hn⟩)

/-! ### EXTRACT as a run of its steps (R120 to R128) -/

/-- A run of extraction steps, each where it is selected (R81). -/
def StepsTo (s t : State) : Prop :=
  ∃ steps : List Instr, (∀ i ∈ steps, i.format = .step ∧ i ≠ .extract) ∧ execAll steps s = .next t

theorem execAll_cons_of_next {i : Instr} {s t : State} (h : exec i s = .next t) (rest : List Instr) :
    execAll (i :: rest) s = execAll rest t := by simp only [execAll, h]

theorem StepsTo.refl (s : State) : StepsTo s s := ⟨[], by simp, rfl⟩

theorem StepsTo.cons {i : Instr} {s t u : State} (htu : StepsTo t u) (h : exec i s = .next t)
    (hi : i.format = .step ∧ i ≠ .extract) : StepsTo s u := by
  obtain ⟨steps, hsteps, hrun⟩ := htu
  exact ⟨i :: steps, List.forall_mem_cons.mpr ⟨hi, hsteps⟩, (execAll_cons_of_next h steps).trans hrun⟩

/-- The state an extraction leaves where its caller keeps the packets and events on the traces and returns nothing. -/
def State.keeping (s : State) (e : Extraction) : State :=
  { s with buf := e.buf, out := s.out ++ e.packets, diag := s.diag ++ e.events }

theorem stepsTo_extract {cfg : FrameConfig} (h : admitted cfg = true) (buf : Bytes) :
    ∀ s : State, s.cfg = cfg → s.buf = buf → StepsTo s (s.keeping (extract cfg buf)) := by
  induction buf using extract_induction h with
  | exits buf hq =>
    rintro s - rfl
    rw [extract_of_normalForm h hq]
    simpa [State.keeping] using StepsTo.refl s
  | scan buf hc =>
    rintro s rfl rfl
    rw [extract_of_scan h hc]
    simpa [State.keeping] using (StepsTo.refl _).cons (exec_xScan h hc) ⟨rfl, nofun⟩
  | align buf p hc ih =>
    rintro s rfl rfl
    rw [extract_of_align h hc]
    exact (ih { s with buf := s.buf.drop p } rfl rfl).cons (exec_xAlign h hc) ⟨rfl, nofun⟩
  | resync buf l hc ih =>
    rintro s rfl rfl
    have hrest := ih { s with buf := s.buf.drop 1, diag := s.diag ++ [.resync l] } rfl rfl
    rw [extract_of_resync h hc]
    simpa [State.keeping] using
      (hrest.cons (exec_xResync h hc) ⟨rfl, nofun⟩).cons (exec_xLen h (congrArg lengthRead hc)) ⟨rfl, nofun⟩
  | emit buf l hc ih =>
    rintro s rfl rfl
    have hrest := ih { s with buf := s.buf.drop (s.cfg.packetOverhead + l),
                              out := s.out ++ [s.buf.take (s.cfg.packetOverhead + l)] } rfl rfl
    rw [extract_of_emit h hc]
    simpa [State.keeping] using
      (hrest.cons (exec_xEmit h hc) ⟨rfl, nofun⟩).cons (exec_xLen h (congrArg lengthRead hc)) ⟨rfl, nofun⟩

/-- Settles O20: each pass of the loop is one step, or X.LEN and the step that follows it. -/
theorem extractIsARunOfSteps : Obligations.ExtractIsARunOfSteps := by
  unfold Obligations.ExtractIsARunOfSteps
  exact fun s h => stepsTo_extract h s.buf s rfl rfl

/-- In the normal form a step that is carried out keeps the accumulator: EXTRACT finds nothing, the waits and X.LEN
write nothing, and the other steps are not selected (R128, R129). -/
theorem exec_step_keeps_buf {s t : State} (hq : s.Quiescent) {i : Instr} (hi : i.format = .step)
    (h : exec i s = .next t) : t.buf = s.buf := by
  obtain ⟨hscan, halign, hresync, hemit⟩ := not_selected_of_normalForm hq.1 hq.2
  have waits {i : Instr} (hw : ifSelected i s s = .next t) : t.buf = s.buf :=
    congrArg State.buf (ifSelected_eq_next_iff.mp hw).2.2.symm
  cases i with
  | extract => rw [exec_extract_next hq h, State.returning_buf]
  | xScan => exact absurd (ifSelected_eq_next_iff.mp h).2.1 hscan
  | xAlign p => exact absurd (ifSelected_eq_next_iff.mp h).2.1 (halign p)
  | xHwait => exact waits h
  | xLen l => exact waits h
  | xResync l => exact absurd (ifSelected_eq_next_iff.mp h).2.1 (hresync l)
  | xBwait => exact waits h
  | xEmit f => exact absurd (ifSelected_eq_next_iff.mp h).2.1 (hemit f)
  | _ => cases hi

@[simp] theorem discardFront_length (buf : Bytes) (k : Nat) : (discardFront buf k).length = buf.length - k :=
  List.length_drop

/-- Settles O21: the selecting condition of a step says that there is as much to remove, and EXTRACT ends in the normal
form. -/
theorem extractTerminates : Obligations.ExtractTerminates := by
  unfold Obligations.ExtractTerminates
  refine ⟨fun s t => ⟨fun hx => ?_, fun p hx => ?_, fun l hx => ?_, fun f hx => ?_⟩, fun s h t u i hx hi hstep => ?_⟩
  · obtain ⟨-, hsel, rfl⟩ := ifSelected_eq_next_iff.mp hx
    obtain ⟨h0, -⟩ := selecting_of_selected_xScan hsel
    have := List.length_pos_iff.mpr h0
    rw [State.withBuf_buf, discardFront_length]
    omega
  · obtain ⟨-, hsel, rfl⟩ := ifSelected_eq_next_iff.mp hx
    obtain ⟨hp, hat, -⟩ := selecting_of_selected_xAlign hsel
    have := (List.getElem?_eq_some_iff.mp hat).1
    rw [State.withBuf_buf, discardFront_length]
    omega
  · obtain ⟨h, hsel, rfl⟩ := ifSelected_eq_next_iff.mp hx
    obtain ⟨-, hH, -⟩ := selecting_of_selected_xResync h hsel
    have := two_le_headerNeed h
    change (discardFront s.buf 1).length + 1 = s.buf.length
    rw [discardFront_length]
    omega
  · obtain ⟨h, hsel, rfl⟩ := ifSelected_eq_next_iff.mp hx
    obtain ⟨-, -, -, hn, rfl⟩ := selecting_of_selected_xEmit h hsel
    have := (two_le_headerNeed h).trans (headerNeed_le_packetOverhead h)
    rw [State.withBuf_buf, discardFront_length, List.length_take_of_le hn]
    omega
  · obtain ⟨-, rfl⟩ := onInstance_eq_next_iff.mp hx
    exact exec_step_keeps_buf ⟨h, (extract_sound h s.buf).normal⟩ hstep hi

/-! ### Where the stream is cut (R131) -/

/-- One extraction after another: the accumulator of the later one, the packets and events of both in order. -/
def Extraction.followedBy (e f : Extraction) : Extraction := ⟨f.buf, e.packets ++ f.packets, e.events ++ f.events⟩

/-- Bytes without a delimiter leave no trace, whatever stands behind them (R78, R121, R122). -/
theorem extract_noise_append {cfg : FrameConfig} (h : admitted cfg = true) {g : Bytes} (hg : cfg.delimiter ∉ g)
    (rest : Bytes) : extract cfg (g ++ rest) = extract cfg rest := by
  induction g with
  | nil => rfl
  | cons b g ih =>
    obtain ⟨hb, hg⟩ := List.ne_and_not_mem_of_not_mem_cons hg
    rw [List.cons_append, extract_cons_of_ne h hb.symm, ih hg]

/-- A candidate that is rejected is rejected whatever arrives behind it (R124, R125). -/
theorem choose_append_of_resync {cfg : FrameConfig} (h : admitted cfg = true) {buf : Bytes} {l : Nat}
    (hc : choose cfg buf = .resync l) (rest : Bytes) : choose cfg (buf ++ rest) = .resync l := by
  obtain ⟨hh, hl, hm⟩ := selecting_of_choose hc
  exact choose_of_selecting ⟨List.mem_head?_append_of_mem_head? hh, lengthAt_append h hl rest, hm⟩

/-- A complete frame stays complete whatever arrives behind it (R124, R127). -/
theorem choose_append_of_emit {cfg : FrameConfig} (h : admitted cfg = true) {buf : Bytes} {l : Nat}
    (hc : choose cfg buf = .emit l) (rest : Bytes) : choose cfg (buf ++ rest) = .emit l := by
  obtain ⟨hh, hl, hm, hn⟩ := selecting_of_choose hc
  refine choose_of_selecting ⟨List.mem_head?_append_of_mem_head? hh, lengthAt_append h hl rest, hm, hn.trans ?_⟩
  simp

/-- R131: to extract, then append, then extract again is to append and extract once. -/
theorem extract_append {cfg : FrameConfig} (h : admitted cfg = true) (buf rest : Bytes) :
    extract cfg (buf ++ rest) = (extract cfg buf).followedBy (extract cfg ((extract cfg buf).buf ++ rest)) := by
  induction buf using extract_induction h with
  | exits buf hq => rw [extract_of_normalForm h hq]; rfl
  | scan buf hc =>
    obtain ⟨-, hd⟩ := selecting_of_choose hc
    rw [extract_of_scan h hc, extract_noise_append h hd]
    rfl
  | align buf p hc ih =>
    obtain ⟨-, -, hd⟩ := selecting_of_choose hc
    have hsplit : buf ++ rest = buf.take p ++ (buf.drop p ++ rest) := by
      rw [← List.append_assoc, List.take_append_drop]
    rw [extract_of_align h hc, hsplit, extract_noise_append h hd, ih]
  | resync buf l hc ih =>
    obtain ⟨hh, -⟩ := selecting_of_choose hc
    have hpos : 1 ≤ buf.length := List.length_pos_iff.mpr (by rintro rfl; cases hh)
    rw [extract_of_resync h hc, extract_of_resync h (choose_append_of_resync h hc rest),
      List.drop_append_of_le_length hpos, ih]
    rfl
  | emit buf l hc ih =>
    obtain ⟨-, -, -, hn⟩ := selecting_of_choose hc
    rw [extract_of_emit h hc, extract_of_emit h (choose_append_of_emit h hc rest),
      List.drop_append_of_le_length hn, List.take_append_of_le_length hn, ih]
    rfl

theorem accept_quiescent {s : State} (h : admitted s.cfg = true) (bytes : Bytes) : (s.accept bytes).Quiescent :=
  ⟨h, (extract_sound h _).normal⟩

/-- Two arrivals leave what one leaves, but for the packets returned, which are those of the later one (R131). -/
theorem accept_accept {s : State} (h : admitted s.cfg = true) (a b : Bytes) :
    (s.accept a).accept b = (s.accept (a ++ b)).returning ((s.accept a).accept b).result := by
  have hx := extract_append h (s.buf ++ a) b
  rw [List.append_assoc] at hx
  simp only [State.accept, State.deliver, State.returning, hx, Extraction.followedBy, List.append_assoc]

/-- Any chunking leaves what one chunk leaves, but for the packets returned (R131). -/
theorem execAll_feeds (chunks : List Bytes) : ∀ {s : State}, s.Quiescent →
    ∃ r, execAll (chunks.map .feed) s = .next ((s.accept chunks.flatten).returning r) := by
  induction chunks with
  | nil =>
    intro s hq
    exact ⟨s.result, by rw [List.flatten_nil, accept_nil_of_quiescent hq]; rfl⟩
  | cons c chunks ih =>
    intro s hq
    obtain ⟨r, hr⟩ := ih (accept_quiescent hq.1 c)
    refine ⟨r, ?_⟩
    rw [List.map_cons, execAll_cons_of_next (exec_feed hq.1 c), hr, accept_accept hq.1]
    rfl

/-- PUSHes are FEEDs of one byte each (R113). -/
theorem execAll_pushes (chunk : Bytes) (s : State) :
    execAll (chunk.map .push) s = execAll ((chunk.map ([·])).map .feed) s := by
  induction chunk generalizing s with
  | nil => rfl
  | cons b chunk ih =>
    have hexec : exec (.push b) s = exec (.feed [b]) s := rfl
    simp only [List.map_cons, execAll, hexec, ih]

/-- Settles O23: FEEDs leave what one FEED of all their bytes leaves, and PUSHes are FEEDs of one byte each. -/
theorem chunkBoundariesAreInvisible : Obligations.ChunkBoundariesAreInvisible := by
  unfold Obligations.ChunkBoundariesAreInvisible
  intro s hq
  have h := hq.1
  refine ⟨fun a b => ?_, fun chunks => ?_, fun chunk => ?_⟩
  · refine ⟨_, _, _, exec_feed h a, exec_feed (s := s.accept a) h b, exec_feed h (a ++ b), ?_⟩
    rw [accept_accept h]
    exact ⟨rfl, rfl, rfl⟩
  · obtain ⟨r, hr⟩ := execAll_feeds chunks hq
    exact ⟨_, _, hr, exec_feed h _, rfl, rfl, rfl⟩
  · obtain ⟨r, hr⟩ := execAll_feeds (chunk.map ([·])) hq
    have hflat : (chunk.map ([·])).flatten = chunk := List.flatMap_singleton' chunk
    rw [← execAll_pushes, hflat] at hr
    exact ⟨_, _, hr, exec_feed h _, rfl, rfl, rfl⟩

/-! ### The encoder's frames (R135, R136, R151) -/

/-- Bytes written over as many old ones take their place. -/
theorem writeAt_window (pre : Bytes) {old w : Bytes} (hlen : old.length = w.length) (post : Bytes) :
    writeAt (pre ++ (old ++ post)) pre.length w = pre ++ (w ++ post) := by
  induction w generalizing pre old with
  | nil => rw [List.length_eq_zero_iff.mp hlen]; rfl
  | cons b w ih =>
    obtain ⟨o, old, rfl⟩ := List.exists_cons_of_length_eq_add_one hlen
    have hset : (pre ++ (o :: old ++ post)).set pre.length b = (pre ++ [b]) ++ (old ++ post) := by simp
    have hpos : pre.length + 1 = (pre ++ [b]).length := by simp
    rw [writeAt, hset, hpos, ih _ (Nat.succ.inj hlen)]
    simp

theorem isLayout_encoded {cfg : FrameConfig} (h : admitted cfg = true) (n : Nat) :
    IsLayout cfg (List.replicate (cfg.lengthOffset - 1) 0) (leBytes cfg.lengthBytes n)
      (List.replicate (cfg.packetOverhead - headerNeed cfg) 0) := by
  have hpo := headerNeed_le_packetOverhead h
  obtain ⟨-, -, hlo, -⟩ := (admitted_iff cfg).mp h
  refine ⟨?_, leBytes_length _ _, ?_⟩ <;> rw [List.length_replicate] <;> omega

/-- The length written into its field of a header, and the payload behind the header. -/
theorem writeAt_layout {cfg : FrameConfig} {pre len post : Bytes} (hlay : IsLayout cfg pre len post) (d : Byte)
    {oldLen old pl : Bytes} (hlen : oldLen.length = len.length) (hpl : old.length = pl.length) :
    writeAt (writeAt (genericHeader d pre oldLen post ++ old) cfg.lengthOffset len) cfg.packetOverhead pl =
      genericHeader d pre len post ++ pl := by
  have hassoc (field : Bytes) : genericHeader d pre field post ++ old = (d :: pre) ++ (field ++ (post ++ old)) := by
    simp [genericHeader]
  have hfield := writeAt_window (d :: pre) hlen (post ++ old)
  have hpayload := writeAt_window (genericHeader d pre len post) hpl []
  rw [List.length_cons, hlay.padBefore] at hfield
  rw [hlay.length, List.append_nil, List.append_nil] at hpayload
  rw [hassoc, hfield, ← hassoc, hpayload]

/-- R151 starts from zeros and the delimiter: a header of zeros with a payload of zeros behind it. -/
theorem zeros_set_delimiter {cfg : FrameConfig} (h : admitted cfg = true) (n : Nat) :
    (List.replicate (n + cfg.packetOverhead) 0).set 0 cfg.delimiter =
      genericHeader cfg.delimiter (List.replicate (cfg.lengthOffset - 1) 0) (List.replicate cfg.lengthBytes 0)
        (List.replicate (cfg.packetOverhead - headerNeed cfg) 0) ++ List.replicate n 0 := by
  have hpo := headerNeed_le_packetOverhead h
  obtain ⟨-, -, hlo, -⟩ := (admitted_iff cfg).mp h
  have hsum : n + cfg.packetOverhead =
      cfg.lengthOffset - 1 + cfg.lengthBytes + (cfg.packetOverhead - headerNeed cfg) + n + 1 := by
    unfold headerNeed at *
    omega
  rw [hsum, List.replicate_succ, List.set_cons_zero]
  simp only [genericHeader, List.cons_append, List.replicate_append_replicate]

/-- ENCODE's frame in the layout of R71: zeros in both PAD fields, the length as `LEbytes`, then the payload (R151). -/
theorem encodeFrame_eq {cfg : FrameConfig} (h : admitted cfg = true) (pl : Bytes) :
    encodeFrame cfg pl =
      genericHeader cfg.delimiter (List.replicate (cfg.lengthOffset - 1) 0) (leBytes cfg.lengthBytes pl.length)
        (List.replicate (cfg.packetOverhead - headerNeed cfg) 0) ++ pl := by
  rw [encodeFrame, zeros_set_delimiter h]
  exact writeAt_layout (isLayout_encoded h pl.length) _ (by simp) (by simp)

/-- The payload view of a frame is the payload (R150). -/
theorem encodeFrame_drop {cfg : FrameConfig} (h : admitted cfg = true) (pl : Bytes) :
    (encodeFrame cfg pl).drop cfg.packetOverhead = pl := by
  rw [encodeFrame_eq h]
  exact List.drop_left' ((isLayout_encoded h pl.length).length _)

/-- The payloads that ENCODE makes a frame of (R152). -/
abbrev Fits (cfg : FrameConfig) (pl : Bytes) : Prop :=
  pl.length ≤ cfg.maxLen ∧ pl.length ≤ 2 ^ (8 * cfg.lengthBytes) - 1

/-- R155: the decoder accepts what ENCODE makes. -/
theorem isFrame_encodeFrame {cfg : FrameConfig} (h : admitted cfg = true) {pl : Bytes} (hfit : Fits cfg pl) :
    isFrame cfg (encodeFrame cfg pl) = true := by
  obtain ⟨hmax, hrep⟩ := hfit
  obtain ⟨hhead, hlen, hl⟩ := (isLayout_encoded h pl.length).isHeader h
  have hlt : pl.length < 256 ^ cfg.lengthBytes := by
    rw [← two_pow_eight_mul]
    have := Nat.two_pow_pos (8 * cfg.lengthBytes)
    omega
  rw [le_leBytes, Nat.mod_eq_of_lt hlt] at hl
  rw [encodeFrame_eq h, isFrame_iff]
  refine ⟨List.mem_head?_append_of_mem_head? hhead, pl.length, lengthAt_append h hl pl, hmax, ?_⟩
  rw [List.length_append, hlen]

theorem exec_encode_of_fits {s : State} (h : admitted s.cfg = true) {pl : Bytes} (hfit : Fits s.cfg pl) :
    exec (.encode pl) s = .next { s with result := .frame (encodeFrame s.cfg pl) } := by
  obtain ⟨hmax, hrep⟩ := hfit
  have hcheck : encodeCheck s.cfg pl = none :=
    (if_neg (Nat.not_lt.mpr hrep)).trans (if_neg (Nat.not_lt.mpr hmax))
  simp only [exec, execEncode, hcheck]
  exact onInstance_eq_next_iff.mpr ⟨h, rfl⟩

/-- Frames one behind the other are emitted one after the other (R127, R136). -/
theorem extract_flatten_frames {cfg : FrameConfig} (h : admitted cfg = true) {frames : List Bytes}
    (hframes : ∀ f ∈ frames, isFrame cfg f = true) : extract cfg frames.flatten = ⟨[], frames, []⟩ := by
  induction frames with
  | nil => exact extract_nil cfg
  | cons f frames ih =>
    obtain ⟨hf, hrest⟩ := List.forall_mem_cons.mp hframes
    rw [List.flatten_cons, extract_append h, extract_of_isFrame h hf, List.nil_append, ih hrest]
    rfl

theorem accept_flatten_frames {s : State} (h : admitted s.cfg = true) (hbuf : s.buf = []) {frames : List Bytes}
    (hframes : ∀ f ∈ frames, isFrame s.cfg f = true) :
    s.accept frames.flatten = { s with out := s.out ++ frames, result := .packets frames } := by
  rw [accept_of_nil hbuf, extract_flatten_frames h hframes, deliver_eq]
  simp [hbuf]

/-- A decoder that holds nothing is quiescent (R22). -/
theorem quiescent_of_nil {s : State} (h : admitted s.cfg = true) (hbuf : s.buf = []) : s.Quiescent :=
  ⟨h, (normalForm_iff h _).mpr (.inl hbuf)⟩

/-- Under any chunking the frames are emitted and nothing else changes, but for the packets returned (R131, R136). -/
theorem execAll_feeds_frames {s : State} (h : admitted s.cfg = true) (hbuf : s.buf = []) {frames chunks : List Bytes}
    (hframes : ∀ f ∈ frames, isFrame s.cfg f = true) (hchunks : chunks.flatten = frames.flatten) :
    ∃ t, execAll (chunks.map .feed) s = .next t ∧ t.out = s.out ++ frames ∧ t.diag = s.diag ∧ t.buf = [] := by
  obtain ⟨r, hr⟩ := execAll_feeds chunks (quiescent_of_nil h hbuf)
  rw [hchunks, accept_flatten_frames h hbuf hframes] at hr
  exact ⟨_, hr, rfl, rfl, hbuf⟩

/-- Settles O27: each payload's frame is one that the decoder accepts, and frames one behind the other are emitted one
after the other. -/
theorem concatenatedFrames : Obligations.ConcatenatedFrames := by
  unfold Obligations.ConcatenatedFrames
  intro s pls h hbuf hfit
  have hframes : ∀ f ∈ pls.map (encodeFrame s.cfg), isFrame s.cfg f = true :=
    List.forall_mem_map.mpr fun pl hpl => isFrame_encodeFrame h (hfit pl hpl)
  refine ⟨pls.map (encodeFrame s.cfg), ?_, ?_, fun chunks => execAll_feeds_frames h hbuf hframes⟩
  · exact List.forall₂_map_right_iff.mpr (List.forall₂_same.mpr fun pl hpl => exec_encode_of_fits h (hfit pl hpl))
  · rw [exec_feed h, accept_flatten_frames h hbuf hframes]

/-- Settles O26: the one frame of the payload, under any chunking. -/
theorem roundTrip : Obligations.RoundTrip := by
  unfold Obligations.RoundTrip
  intro s pl h hbuf hmax hrep
  have hframe := isFrame_encodeFrame h ⟨hmax, hrep⟩
  refine ⟨encodeFrame s.cfg pl, exec_encode_of_fits h ⟨hmax, hrep⟩, encodeFrame_drop h pl, ?_, fun chunks hchunks => ?_⟩
  · rw [exec_feed h, accept_of_isFrame h hbuf hframe]
  · exact execAll_feeds_frames h hbuf (List.forall_mem_singleton.mpr hframe) (hchunks.trans List.flatten_singleton.symm)

/-! ### Garbage, a partial header, the document's scenario (R137 to R139) -/

/-- Settles O28: the garbage is discarded, the spurious delimiter reported and dropped, the rest of its header discarded
as noise, and what then stands at the front is a whole frame. -/
theorem resynchronizationFindsValidFrame : Obligations.ResynchronizationFindsValidFrame := by
  unfold Obligations.ResynchronizationFindsValidFrame
  intro s g sp v h hbuf hg hsplen hsphead hsptail hspmax hvhead hvH hvmax hvlen
  have hv : isFrame s.cfg v = true :=
    (isFrame_iff v).mpr ⟨hvhead, _, lengthAt_eq_lengthFieldSum h hvH, hvmax, hvlen⟩
  have hl := lengthAt_append h (lengthAt_eq_lengthFieldSum h hsplen.ge) v
  obtain ⟨rest, rfl⟩ := List.head?_eq_some_iff.mp hsphead
  rw [List.tail_cons] at hsptail
  have hx : extract s.cfg (g ++ s.cfg.delimiter :: rest ++ v) =
      ⟨[], [v], [.resync (lengthFieldSum s.cfg (s.cfg.delimiter :: rest))]⟩ := by
    rw [List.append_assoc, extract_noise_append h hg, List.cons_append,
      extract_of_spurious (rest := rest ++ v) h rfl hl hspmax,
      extract_noise_append h hsptail, extract_of_isFrame h hv]
  rw [exec_feed h, accept_of_nil hbuf, hx, deliver_eq, hbuf]

/-- Settles O29: a delimiter with an incomplete length field is a normal form, and the rest makes it a whole frame. -/
theorem partialHeaderIsCompletedLater : Obligations.PartialHeaderIsCompletedLater := by
  unfold Obligations.PartialHeaderIsCompletedLater
  intro s start h hbuf hh hlt
  have hq : normalForm s.cfg start = true :=
    (normalForm_iff h start).mpr (.inr ⟨hh, .inl ((lengthAt_eq_none_iff h start).mpr hlt)⟩)
  have hkeep : exec (.feed start) s = .next { s with buf := start, result := .packets [] } := by
    rw [exec_feed h, accept_of_normalForm h hbuf hq]
  refine ⟨hkeep, fun rest hH hmax hlen => ?_⟩
  have hf : isFrame s.cfg (start ++ rest) = true :=
    (isFrame_iff _).mpr ⟨List.mem_head?_append_of_mem_head? hh, _, lengthAt_eq_lengthFieldSum h hH, hmax, hlen⟩
  have hfeed := exec_feed (s := { s with buf := start, result := .packets [] }) h rest
  rw [execAll_cons_of_next hkeep, execAll_cons_of_next hfeed, execAll, State.accept, extract_of_isFrame h hf,
    deliver_eq, hbuf, List.append_nil]

/-- Settles O30: CONFIGURE makes the decoder of configuration `S`, for which the bytes are a whole frame. -/
theorem concreteScenario : Obligations.ConcreteScenario := by
  unfold Obligations.ConcreteScenario
  have hconf : exec (.configure
      { delimiter := some 0x69, packetOverhead := some 3, lengthBytes := some 2, lengthOffset := some 1 }) State.reset =
      .next (State.reset.constructed scenarioConfig) := rfl
  have hframe : isFrame scenarioConfig [0x69, 0x04, 0x00, 0x74, 0x65, 0x73, 0x74] = true := by decide
  have hfeed := exec_feed (s := State.reset.constructed scenarioConfig) rfl [0x69, 0x04, 0x00, 0x74, 0x65, 0x73, 0x74]
  rw [accept_of_isFrame rfl rfl hframe] at hfeed
  rw [execAll_cons_of_next hconf, execAll_cons_of_next hfeed]
  exact ⟨_, rfl, rfl, rfl, rfl⟩

/-! ### The fate of every byte (R132, R133) -/

/-- The bytes of `buf` are discarded runs and packets in turn, then a discarded run, then what is still held. -/
def Partitions (buf : Bytes) (packets : List Bytes) (held : Bytes) : Prop :=
  ∃ gaps lastGap, gaps.length = packets.length ∧ buf = interleave gaps packets ++ lastGap ++ held

theorem Partitions.of_gap (gap held : Bytes) : Partitions (gap ++ held) [] held := ⟨[], gap, rfl, rfl⟩

/-- Bytes discarded in front lengthen the first discarded run. -/
theorem Partitions.discard {buf held : Bytes} {packets : List Bytes} (hp : Partitions buf packets held) (g : Bytes) :
    Partitions (g ++ buf) packets held := by
  obtain ⟨gaps, lastGap, hlen, rfl⟩ := hp
  cases packets with
  | nil =>
    obtain rfl := List.length_eq_zero_iff.mp hlen
    exact ⟨[], g ++ lastGap, rfl, by simp [interleave]⟩
  | cons f packets =>
    obtain ⟨gap, gaps, rfl⟩ := List.exists_cons_of_length_eq_add_one hlen
    exact ⟨(g ++ gap) :: gaps, lastGap, hlen, by simp [interleave]⟩

/-- A packet emitted from the front stands behind an empty discarded run. -/
theorem Partitions.emit {buf held : Bytes} {packets : List Bytes} (hp : Partitions buf packets held) (f : Bytes) :
    Partitions (f ++ buf) (f :: packets) held := by
  obtain ⟨gaps, lastGap, hlen, rfl⟩ := hp
  exact ⟨[] :: gaps, lastGap, congrArg Nat.succ hlen, by simp [interleave]⟩

theorem partitions_extract {cfg : FrameConfig} (h : admitted cfg = true) (buf : Bytes) :
    Partitions buf (extract cfg buf).packets (extract cfg buf).buf := by
  induction buf using extract_induction h with
  | exits buf hq =>
    rw [extract_of_normalForm h hq]
    exact .of_gap [] buf
  | scan buf hc =>
    rw [extract_of_scan h hc]
    simpa using Partitions.of_gap buf []
  | align buf p hc ih =>
    rw [extract_of_align h hc]
    have hp := ih.discard (buf.take p)
    rwa [List.take_append_drop] at hp
  | resync buf l hc ih =>
    rw [extract_of_resync h hc]
    have hp := ih.discard (buf.take 1)
    rwa [List.take_append_drop] at hp
  | emit buf l hc ih =>
    rw [extract_of_emit h hc]
    have hp := ih.emit (buf.take (cfg.packetOverhead + l))
    rwa [List.take_append_drop] at hp

/-- Settles O24: a pass of the loop discards from the front, emits from the front, or exits. -/
theorem everyByteHasOneFate : Obligations.EveryByteHasOneFate := by
  unfold Obligations.EveryByteHasOneFate
  intro s h
  refine ⟨fun chunk => ?_, ⟨_, exec_reset h, rfl, rfl⟩, ⟨_, exec_endStream h, rfl, rfl⟩⟩
  obtain ⟨gaps, lastGap, hlen, hsplit⟩ := partitions_extract h (s.buf ++ chunk)
  exact ⟨_, _, gaps, lastGap, exec_feed h chunk, rfl, hlen, hsplit⟩

/-! ### One PUSH (R134) -/

/-- All that one more byte can make of a quiescent accumulator: nothing while the length field is incomplete, the length
rejected as it becomes complete, the byte kept, or the frame complete and emitted. -/
inductive PushOutcome (cfg : FrameConfig) (buf full : Bytes) : Extraction → Prop
  | short (held : Bytes) : buf.length + 1 < headerNeed cfg → PushOutcome cfg buf full ⟨held, [], []⟩
  | rejected (held : Bytes) (l : Nat) : buf.length + 1 = headerNeed cfg → held.length < headerNeed cfg →
      PushOutcome cfg buf full ⟨held, [], [.resync l]⟩
  | kept : headerNeed cfg ≤ buf.length + 1 → PushOutcome cfg buf full ⟨full, [], []⟩
  | emitted : headerNeed cfg ≤ buf.length + 1 → isFrame cfg full = true → PushOutcome cfg buf full ⟨[], [full], []⟩

/-- A quiescent accumulator with something in it starts with the delimiter (R22). -/
theorem head?_of_normalForm {cfg : FrameConfig} (h : admitted cfg = true) {buf : Bytes}
    (hq : normalForm cfg buf = true) (h0 : buf ≠ []) : buf.head? = some cfg.delimiter := by
  rcases (normalForm_iff h buf).mp hq with rfl | ⟨hh, -⟩
  · exact absurd rfl h0
  · exact hh

theorem pushOutcome_extract {cfg : FrameConfig} (h : admitted cfg = true) {buf : Bytes}
    (hq : normalForm cfg buf = true) (b : Byte) :
    PushOutcome cfg buf (buf ++ [b]) (extract cfg (buf ++ [b])) := by
  have h2 := two_le_headerNeed h
  have hpo := headerNeed_le_packetOverhead h
  have hlen : (buf ++ [b]).length = buf.length + 1 := List.length_append
  rcases Nat.lt_or_ge (buf.length + 1) (headerNeed cfg) with hlt | hge
  · rw [extract_of_short h (hlen.trans_lt hlt)]
    exact .short _ hlt
  have h0 : buf ≠ [] := by rintro rfl; rw [List.length_nil] at hge; omega
  have hh : (buf ++ [b]).head? = some cfg.delimiter := List.mem_head?_append_of_mem_head? (head?_of_normalForm h hq h0)
  have hl := lengthAt_eq_lengthFieldSum h (hge.trans_eq hlen.symm)
  have hbody (hH : headerNeed cfg ≤ buf.length) : lengthFieldSum cfg (buf ++ [b]) ≤ cfg.maxLen ∧
      buf.length < cfg.packetOverhead + lengthFieldSum cfg (buf ++ [b]) := by
    have hsame := lengthAt_append h (lengthAt_eq_lengthFieldSum h hH) [b]
    rw [Option.some.inj (hl.symm.trans hsame)]
    exact (normalForm_body h hq hH).2
  rcases Nat.lt_or_ge cfg.maxLen (lengthFieldSum cfg (buf ++ [b])) with hm | hm
  · have hlast : buf.length + 1 = headerNeed cfg := by omega
    have hshort : ((buf ++ [b]).drop 1).length < headerNeed cfg := by rw [List.length_drop]; omega
    have hx := extract_of_short h hshort
    rw [extract_of_resync h (choose_of_selecting ⟨hh, hl, hm⟩), hx]
    refine .rejected _ _ hlast ?_
    cases find ((buf ++ [b]).drop 1) cfg.delimiter with
    | none => exact Nat.zero_lt_of_lt hshort
    | some q => exact (List.drop_sublist q _).length_le.trans_lt hshort
  · rcases Nat.lt_or_ge (buf ++ [b]).length (cfg.packetOverhead + lengthFieldSum cfg (buf ++ [b])) with hn | hn
    · rw [extract_of_normalForm h ((normalForm_iff h _).mpr (.inr ⟨hh, .inr ⟨_, hl, hm, hn⟩⟩))]
      exact .kept hge
    · have hf : isFrame cfg (buf ++ [b]) = true := (isFrame_iff _).mpr ⟨hh, _, hl, hm, by omega⟩
      rw [extract_of_isFrame h hf]
      exact .emitted hge hf

/-- Settles O25: each of the four outcomes meets every clause; a frame as short as `H` has no payload, and no PAD behind
the length. -/
theorem pushEmitsAtMostOneThing : Obligations.PushEmitsAtMostOneThing := by
  unfold Obligations.PushEmitsAtMostOneThing
  intro s b hq
  refine ⟨_, _, _, exec_push hq.1 b, rfl, rfl, ?_⟩
  have hpo := headerNeed_le_packetOverhead hq.1
  have hout := pushOutcome_extract hq.1 hq.2 b
  rw [State.accept_buf]
  generalize extract s.cfg (s.buf ++ [b]) = e at hout ⊢
  cases hout with
  | short held hlt => exact ⟨by simp, by simp, by simp, by simp, fun hH => by omega⟩
  | rejected held l hlast hheld =>
    exact ⟨by simp, fun hlt => by omega, fun _ _ => hheld, by simp, fun hH => by omega⟩
  | kept hge => exact ⟨by simp, by simp, by simp, by simp, by simp⟩
  | emitted hge hf =>
    obtain ⟨-, hlen, -⟩ := isFrame_layout hq.1 hf
    rw [List.length_append, List.length_singleton] at hlen
    exact ⟨by simp, fun hlt => by omega, by simp, fun hlast _ => by omega, by simp⟩

end Sys2Proof.Machine
end

section
/-! PROOFS. The family of 43_encoder.md: the causes that ENCODE reports (R152, R153), the frame it returns position by
position (R151), and the steps the decoder takes on that frame (R155). -/

namespace Sys2Proof.Machine

/-! ### What ENCODE answers (R150, R152, R153) -/

theorem exec_encode_of_check_eq_some {s : State} (h : admitted s.cfg = true) {pl : Bytes} {c : EncodeCause}
    (hcheck : encodeCheck s.cfg pl = some c) :
    exec (.encode pl) s = .next { s with result := .raised (.encodeRangeError c) } := by
  simp only [exec, execEncode, hcheck]
  exact onInstance_eq_next_iff.mpr ⟨h, takeCondition_encodeRangeError s c⟩

theorem encodeCheck_eq_none_iff {cfg : FrameConfig} {pl : Bytes} : encodeCheck cfg pl = none ↔ Fits cfg pl := by
  unfold encodeCheck
  split
  next hrep => exact ⟨nofun, fun hfit => absurd hfit.2 (Nat.not_le.mpr hrep)⟩
  next hrep =>
    split
    next hmax => exact ⟨nofun, fun hfit => absurd hfit.1 (Nat.not_le.mpr hmax)⟩
    next hmax => exact ⟨fun _ => ⟨Nat.not_lt.mp hmax, Nat.not_lt.mp hrep⟩, fun _ => rfl⟩

/-- Settles O48: each cause is what the checks, taken in their order, answer. -/
theorem encodeReportsFirstFailedCheck : Obligations.EncodeReportsFirstFailedCheck := by
  unfold Obligations.EncodeReportsFirstFailedCheck
  exact fun s pl h => ⟨fun hrep => exec_encode_of_check_eq_some h (if_pos hrep),
    fun hrep hmax => exec_encode_of_check_eq_some h ((if_neg (Nat.not_lt.mpr hrep)).trans (if_pos hmax))⟩

/-- ENCODE returns a frame exactly where both checks pass, and then the frame of R151. -/
theorem exec_encode_eq_frame_iff {s : State} {pl f : Bytes} :
    exec (.encode pl) s = .next { s with result := .frame f } ↔
      admitted s.cfg = true ∧ Fits s.cfg pl ∧ f = encodeFrame s.cfg pl := by
  constructor
  · intro hx
    obtain ⟨h, hnext⟩ := onInstance_eq_next_iff.mp hx
    have hresult := congrArg State.result hnext
    cases hcheck : encodeCheck s.cfg pl with
    | some c =>
      rw [hcheck] at hresult
      cases hresult
    | none =>
      rw [hcheck] at hresult
      cases hresult
      exact ⟨h, encodeCheck_eq_none_iff.mp hcheck, rfl⟩
  · rintro ⟨h, hfit, rfl⟩
    exact exec_encode_of_fits h hfit

/-! ### The frame, position by position (R151) -/

@[simp] theorem encodeFrame_length (cfg : FrameConfig) (pl : Bytes) :
    (encodeFrame cfg pl).length = pl.length + cfg.packetOverhead := by simp [encodeFrame]

/-- Which of R151's writes a position shows: the payload, the length field, or what was there before both. -/
theorem encodeFrame_getElem? {cfg : FrameConfig} (h : admitted cfg = true) (pl : Bytes) (j : Nat) :
    (encodeFrame cfg pl)[j]? =
      if cfg.packetOverhead ≤ j ∧ j < cfg.packetOverhead + pl.length then pl[j - cfg.packetOverhead]?
      else if cfg.lengthOffset ≤ j ∧ j < headerNeed cfg then
        (leBytes cfg.lengthBytes pl.length)[j - cfg.lengthOffset]?
      else ((List.replicate (pl.length + cfg.packetOverhead) 0).set 0 cfg.delimiter)[j]? := by
  have hpo := headerNeed_le_packetOverhead h
  unfold headerNeed at *
  rw [encodeFrame, writeAt_getElem? _ _ _ (by simp; omega), writeAt_getElem? _ _ _ (by simp; omega), leBytes_length]

theorem encodeFrame_getElem?_zero {cfg : FrameConfig} (h : admitted cfg = true) (pl : Bytes) :
    (encodeFrame cfg pl)[0]? = some cfg.delimiter := by
  have hpo := headerNeed_le_packetOverhead h
  have h2 := two_le_headerNeed h
  obtain ⟨-, -, hlo, -⟩ := (admitted_iff cfg).mp h
  rw [encodeFrame_getElem? h, if_neg (by omega), if_neg (by omega), List.getElem?_set_self (by simp; omega)]

theorem encodeFrame_getElem?_length {cfg : FrameConfig} (h : admitted cfg = true) (pl : Bytes) {i : Nat}
    (hi : i < cfg.lengthBytes) :
    (encodeFrame cfg pl)[cfg.lengthOffset + i]? = some (BitVec.ofNat 8 (pl.length / 256 ^ i % 256)) := by
  have hpo := headerNeed_le_packetOverhead h
  have hH : cfg.lengthOffset + i < headerNeed cfg := Nat.add_lt_add_left hi _
  rw [encodeFrame_getElem? h, if_neg (by omega), if_pos ⟨Nat.le_add_right _ _, hH⟩, Nat.add_sub_cancel_left,
    leBytes_getElem? _ _ _ hi]

theorem encodeFrame_getElem?_pad {cfg : FrameConfig} (h : admitted cfg = true) (pl : Bytes) {j : Nat} (h1 : 1 ≤ j)
    (hj : j < cfg.packetOverhead) (hpad : j < cfg.lengthOffset ∨ headerNeed cfg ≤ j) :
    (encodeFrame cfg pl)[j]? = some 0 := by
  rw [encodeFrame_getElem? h, if_neg (by omega), if_neg (by omega), List.getElem?_set_ne (by omega),
    List.getElem?_replicate_of_lt (by omega)]

theorem encodeFrame_getElem?_payload {cfg : FrameConfig} (h : admitted cfg = true) (pl : Bytes) {j : Nat}
    (hj : j < pl.length) : (encodeFrame cfg pl)[cfg.packetOverhead + j]? = pl[j]? := by
  rw [encodeFrame_getElem? h, if_pos (by omega), Nat.add_sub_cancel_left]

/-- Settles O47: the frame of R151, read at the positions of its delimiter, length field, PAD and payload. -/
theorem encodedFrameLayout : Obligations.EncodedFrameLayout := by
  unfold Obligations.EncodedFrameLayout
  intro s pl h hrep hmax
  exact ⟨encodeFrame s.cfg pl, exec_encode_of_fits h ⟨hmax, hrep⟩, encodeFrame_length _ _,
    encodeFrame_getElem?_zero h pl, fun _ => encodeFrame_getElem?_length h pl,
    fun _ => encodeFrame_getElem?_pad h pl, fun _ => encodeFrame_getElem?_payload h pl⟩

/-! ### The decoder on that frame (R124, R127, R155) -/

/-- On a whole frame and nothing behind it the decoder reads the length and emits the frame. -/
theorem execAll_xLen_xEmit_of_isFrame {s : State} (h : admitted s.cfg = true) (hf : isFrame s.cfg s.buf = true) :
    execAll [.xLen (lengthFieldSum s.cfg s.buf), .xEmit s.buf] s =
      .next { s with buf := [], out := s.out ++ [s.buf] } := by
  obtain ⟨hhead, l, hl, hm, hlen⟩ := (isFrame_iff _).mp hf
  obtain ⟨-, rfl⟩ := lengthFieldSum_of_lengthAt h hl
  have hemit := exec_xEmit h (choose_of_selecting (c := .emit _) ⟨hhead, hl, hm, hlen.ge⟩)
  rw [← hlen, List.take_length, List.drop_length] at hemit
  rw [execAll_cons_of_next (exec_xLen h (lengthRead_of_head hhead hl)), execAll_cons_of_next hemit, execAll]

/-- Settles O49: what ENCODE returns is a whole frame, whose length then tells the value of its length field. -/
theorem encodedFrameIsAccepted : Obligations.EncodedFrameIsAccepted := by
  unfold Obligations.EncodedFrameIsAccepted
  intro s pl f hx
  obtain ⟨h, hfit, rfl⟩ := exec_encode_eq_frame_iff.mp hx
  have hf := isFrame_encodeFrame h hfit
  obtain ⟨hhead, hlen, -⟩ := isFrame_layout h hf
  have hsize := (encodeFrame_length s.cfg pl).trans (Nat.add_comm _ _)
  have hsum : lengthFieldSum s.cfg (encodeFrame s.cfg pl) = pl.length := Nat.add_left_cancel (hlen.symm.trans hsize)
  have hrun := execAll_xLen_xEmit_of_isFrame (s := { s with buf := encodeFrame s.cfg pl }) h hf
  rw [hsum] at hrun
  exact ⟨hhead, hsum, le_min hfit.1 hfit.2, hsize, hrun⟩

end Sys2Proof.Machine
end

section
/-! PROOFS. The family of 44_byte_serial_fsm.md: the six transitions (R161 to R166), that exactly one of them applies
(R167), and that the automaton and the extraction loop agree (R168). -/

namespace Sys2Proof.Machine

/-! ### The automaton's view of the accumulator (R26, R160) -/

theorem automatonOf_eq_some_iff {cfg : FrameConfig} {buf : Bytes} {a : Automaton} :
    automatonOf cfg buf = some a ↔ phaseOf cfg buf = some a.phase ∧ buf = a.buf ∧ latchedLength cfg buf = a.len := by
  obtain ⟨ph, abuf, len⟩ := a
  simp [automatonOf]

theorem automatonOf_of_header {cfg : FrameConfig} {buf : Bytes} (hph : phaseOf cfg buf = some .header) :
    automatonOf cfg buf = some ⟨.header, buf, none⟩ :=
  automatonOf_eq_some_iff.mpr ⟨hph, rfl, by simp [latchedLength, hph]⟩

/-- A length is latched in BODY only (R26). -/
theorem latchedLength_eq_some_iff {cfg : FrameConfig} {buf : Bytes} {l : Nat} :
    latchedLength cfg buf = some l ↔ phaseOf cfg buf = some .body ∧ lengthAt cfg buf = some l := by
  simp [latchedLength]

theorem automatonOf_of_latched {cfg : FrameConfig} {buf : Bytes} {l : Nat} (hl : latchedLength cfg buf = some l) :
    automatonOf cfg buf = some ⟨.body, buf, some l⟩ :=
  automatonOf_eq_some_iff.mpr ⟨(latchedLength_eq_some_iff.mp hl).1, rfl, hl⟩

/-- A valid length is latched while the frame is not complete (R26). -/
theorem automatonOf_of_body {cfg : FrameConfig} (h : admitted cfg = true) {buf : Bytes} {l : Nat}
    (hh : buf.head? = some cfg.delimiter) (hl : lengthAt cfg buf = some l) (hm : l ≤ cfg.maxLen)
    (hn : buf.length < cfg.packetOverhead + l) : automatonOf cfg buf = some ⟨.body, buf, some l⟩ :=
  automatonOf_of_latched (latchedLength_eq_some_iff.mpr ⟨phaseOf_eq_body h hh hl hm hn, hl⟩)

theorem automaton_of_view {s : State} {a : Automaton} (ha : automatonOf s.cfg s.buf = some a) : s.automaton = a := by
  rw [State.automaton, ha, Option.getD_some]

/-- The phase is defined at quiescence only (R26). -/
theorem normalForm_of_phaseOf {cfg : FrameConfig} {buf : Bytes} {ph : Phase} (hph : phaseOf cfg buf = some ph) :
    normalForm cfg buf = true := by
  by_contra hq
  simp [phaseOf, hq] at hph

/-- In HEADER the accumulator starts with the delimiter (R22 (b)). -/
theorem head?_of_header {cfg : FrameConfig} (h : admitted cfg = true) {buf : Bytes}
    (hph : phaseOf cfg buf = some .header) : buf.head? = some cfg.delimiter :=
  head?_of_normalForm h (normalForm_of_phaseOf hph) (by rintro rfl; cases hph)

/-- In BODY the accumulator starts with the delimiter of a candidate of valid length (R22 (c)). -/
theorem candidate_of_latched {cfg : FrameConfig} (h : admitted cfg = true) {buf : Bytes} {l : Nat}
    (hlatched : latchedLength cfg buf = some l) :
    buf.head? = some cfg.delimiter ∧ lengthAt cfg buf = some l ∧ l ≤ cfg.maxLen := by
  obtain ⟨hph, hl⟩ := latchedLength_eq_some_iff.mp hlatched
  obtain ⟨hH, hsum⟩ := lengthFieldSum_of_lengthAt h hl
  obtain ⟨hh, hm, -⟩ := normalForm_body h (normalForm_of_phaseOf hph) hH
  exact ⟨hh, hl, hsum ▸ hm⟩

/-! ### The row a byte takes (R167) -/

/-- The "Selected when" lines tell the row: the converse of `selecting_of_byteKindAt`. -/
theorem byteKindAt_of_selecting {cfg : FrameConfig} {buf : Bytes} {b : Byte} {k : ByteKind}
    (hs : ByteSelecting cfg buf b k) : byteKindAt cfg buf b = some k := by
  unfold byteKindAt
  cases k with
  | huntDelim =>
    obtain ⟨rfl, hb⟩ := hs
    exact (byteRow_hunt cfg [] none b).trans (by rw [if_pos hb])
  | huntNoise =>
    obtain ⟨rfl, hb⟩ := hs
    exact (byteRow_hunt cfg [] none b).trans (by rw [if_neg hb])
  | headerAcc =>
    obtain ⟨hph, hn⟩ := hs
    rw [automatonOf_of_header hph, Option.bind_some, byteRow_header, if_pos hn]
  | headerLast =>
    obtain ⟨hph, hn⟩ := hs
    rw [automatonOf_of_header hph, Option.bind_some, byteRow_header, if_neg hn.not_lt, if_pos hn]
  | bodyAcc =>
    obtain ⟨l, hl, hn⟩ := hs
    rw [automatonOf_of_latched hl, Option.bind_some, byteRow_body, if_pos hn]
  | bodyLast =>
    obtain ⟨l, hl, hn⟩ := hs
    rw [automatonOf_of_latched hl, Option.bind_some, byteRow_body, if_neg hn.not_lt, if_pos hn]

/-- At quiescence every byte takes a row: `n` is below the bound of its phase, so `n + 1` is below it or reaches it (R167). -/
theorem exists_byteKindAt {cfg : FrameConfig} (h : admitted cfg = true) {buf : Bytes} (hq : normalForm cfg buf = true)
    (b : Byte) : ∃ k, byteKindAt cfg buf b = some k := by
  rcases automatonOf_cases h hq with ⟨rfl, -⟩ | ⟨hh, hlt, -⟩ | ⟨l, hh, hl, hm, hn, ha⟩
  · by_cases hb : b = cfg.delimiter
    · exact ⟨_, byteKindAt_of_selecting (k := .huntDelim) ⟨rfl, hb⟩⟩
    · exact ⟨_, byteKindAt_of_selecting (k := .huntNoise) ⟨rfl, hb⟩⟩
  · have hph := phaseOf_eq_header h hh hlt
    rcases Nat.lt_or_eq_of_le (Nat.succ_le_of_lt hlt) with hacc | hlast
    · exact ⟨_, byteKindAt_of_selecting (k := .headerAcc) ⟨hph, hacc⟩⟩
    · exact ⟨_, byteKindAt_of_selecting (k := .headerLast) ⟨hph, hlast⟩⟩
  · obtain ⟨-, -, hlatched⟩ := automatonOf_eq_some_iff.mp ha
    rcases Nat.lt_or_eq_of_le (Nat.succ_le_of_lt hn) with hacc | hlast
    · exact ⟨_, byteKindAt_of_selecting (k := .bodyAcc) ⟨l, hlatched, hacc⟩⟩
    · exact ⟨_, byteKindAt_of_selecting (k := .bodyLast) ⟨l, hlatched, hlast⟩⟩

theorem mem_byteRowsOf_iff {i : Instr} {b : Byte} : i ∈ byteRowsOf b ↔ ∃ k, byteInstr k b = i := by
  constructor
  · intro hi
    simp only [byteRowsOf, List.mem_cons, List.not_mem_nil, or_false] at hi
    obtain rfl | rfl | rfl | rfl | rfl | rfl := hi
    exacts [⟨.huntDelim, rfl⟩, ⟨.huntNoise, rfl⟩, ⟨.headerAcc, rfl⟩, ⟨.headerLast, rfl⟩, ⟨.bodyAcc, rfl⟩,
      ⟨.bodyLast, rfl⟩]
  · rintro ⟨k, rfl⟩
    cases k <;> simp [byteRowsOf, byteInstr]

/-! ### A transition as an operation (R161 to R166) -/

theorem exec_byteInstr_of_byteKindAt {s : State} (h : admitted s.cfg = true) {k : ByteKind} {b : Byte}
    (hk : byteKindAt s.cfg s.buf b = some k) :
    exec (byteInstr k b) s = .next (s.deliver (transition s.cfg s.automaton b k).extraction) := by
  rw [exec_byteInstr, ifSelected_eq_next_iff, selected_byteInstr]
  exact ⟨h, beq_iff_eq.mpr hk, rfl⟩

/-- A transition whose selecting condition holds does what its rule says to the registers derived from the accumulator. -/
theorem exec_byteInstr_of_selecting {s : State} (h : admitted s.cfg = true) {k : ByteKind} {b : Byte} {a : Automaton}
    (ha : automatonOf s.cfg s.buf = some a) (hs : ByteSelecting s.cfg s.buf b k) :
    exec (byteInstr k b) s = .next (s.deliver (transition s.cfg a b k).extraction) := by
  rw [exec_byteInstr_of_byteKindAt h (byteKindAt_of_selecting hs), automaton_of_view ha]

theorem deliver_quiet (s : State) (buf : Bytes) :
    s.deliver ⟨buf, [], []⟩ = { s with buf := buf, result := .packets [] } := by simp [deliver_eq]

theorem deliver_packet (s : State) (buf f : Bytes) :
    s.deliver ⟨buf, [f], []⟩ = { s with buf := buf, out := s.out ++ [f], result := .packets [f] } := by simp [deliver_eq]

theorem deliver_event (s : State) (buf : Bytes) (e : DiagEvent) :
    s.deliver ⟨buf, [], [e]⟩ = { s with buf := buf, diag := s.diag ++ [e], result := .packets [] } := by simp [deliver_eq]

/-- Settles O39: one byte is shorter than any header, so the delimiter alone is a candidate. -/
theorem huntTransitions : Obligations.HuntTransitions := by
  unfold Obligations.HuntTransitions
  intro s b h hbuf
  have ha : automatonOf s.cfg s.buf = some ⟨.hunt, [], none⟩ := by rw [hbuf]; rfl
  refine ⟨fun hb => ?_, fun hb => ⟨?_, ?_⟩⟩
  · refine (exec_byteInstr_of_selecting (k := .huntNoise) h ha ⟨hbuf, hb⟩).trans ?_
    rw [transition, huntNoise, Transition.extraction, deliver_quiet, ← hbuf]
  · refine (exec_byteInstr_of_selecting (k := .huntDelim) h ha ⟨hbuf, hb⟩).trans ?_
    rw [transition, huntDelim, Transition.extraction, deliver_quiet]
  · exact phaseOf_eq_header h (congrArg some hb) (two_le_headerNeed h)

/-- Settles O40: `headerAcc` on the registers of a HEADER accumulator. -/
theorem headerByteAccumulates : Obligations.HeaderByteAccumulates := by
  unfold Obligations.HeaderByteAccumulates
  intro s b hq hph hn
  refine (exec_byteInstr_of_selecting (k := .headerAcc) hq.1 (automatonOf_of_header hph) ⟨hph, hn⟩).trans ?_
  rw [transition, headerAcc, Transition.extraction, deliver_quiet]

/-- Settles O42: `bodyAcc` on the registers of an accumulator with its length latched. -/
theorem bodyByteAccumulates : Obligations.BodyByteAccumulates := by
  unfold Obligations.BodyByteAccumulates
  intro s b l hq hl hn
  refine (exec_byteInstr_of_selecting (k := .bodyAcc) hq.1 (automatonOf_of_latched hl) ⟨l, hl, hn⟩).trans ?_
  rw [transition, bodyAcc, Transition.extraction, deliver_quiet]

/-- Settles O43: `bodyLast` on the registers of an accumulator with its length latched. -/
theorem lastBodyByteEmitsFrame : Obligations.LastBodyByteEmitsFrame := by
  unfold Obligations.LastBodyByteEmitsFrame
  intro s b l hq hl hn
  refine (exec_byteInstr_of_selecting (k := .bodyLast) hq.1 (automatonOf_of_latched hl) ⟨l, hl, hn⟩).trans ?_
  rw [transition, bodyLast, Transition.extraction, deliver_packet]

/-! ### The four outcomes of the last header byte (R164) -/

section LastHeaderByte

variable {cfg : FrameConfig} {buf : Bytes} {b : Byte} {v : Nat}
  (hv : le (slice (buf ++ [b]) cfg.lengthOffset (headerNeed cfg)) = v)

include hv

theorem headerLast_of_reject_none (hm : cfg.maxLen < v) (hf : find ((buf ++ [b]).drop 1) cfg.delimiter = none) :
    headerLast cfg ⟨.header, buf, none⟩ b = ⟨⟨.hunt, [], none⟩, [], [.resync v]⟩ := by
  simp only [headerLast, hv, if_pos hm, hf]

theorem headerLast_of_reject_some (hm : cfg.maxLen < v) {q : Nat}
    (hf : find ((buf ++ [b]).drop 1) cfg.delimiter = some q) :
    headerLast cfg ⟨.header, buf, none⟩ b = ⟨⟨.header, ((buf ++ [b]).drop 1).drop q, none⟩, [], [.resync v]⟩ := by
  simp only [headerLast, hv, if_pos hm, hf]

theorem headerLast_of_bare (hm : v ≤ cfg.maxLen) (hbare : headerNeed cfg = cfg.packetOverhead ∧ v = 0) :
    headerLast cfg ⟨.header, buf, none⟩ b = ⟨⟨.hunt, [], none⟩, [buf ++ [b]], []⟩ := by
  simp only [headerLast, hv, if_neg hm.not_gt, if_pos hbare]

theorem headerLast_of_valid (hm : v ≤ cfg.maxLen) (hmore : ¬ (headerNeed cfg = cfg.packetOverhead ∧ v = 0)) :
    headerLast cfg ⟨.header, buf, none⟩ b = ⟨⟨.body, buf ++ [b], some v⟩, [], []⟩ := by
  simp only [headerLast, hv, if_neg hm.not_gt, if_neg hmore]

end LastHeaderByte

/-- The byte that completes the length field leaves registers that are those of the accumulator it leaves. -/
theorem headerLast_keeps_view {cfg : FrameConfig} (h : admitted cfg = true) {buf : Bytes}
    (hh : buf.head? = some cfg.delimiter) (hn : buf.length + 1 = headerNeed cfg) (b : Byte) :
    automatonOf cfg (headerLast cfg ⟨.header, buf, none⟩ b).next.buf =
      some (headerLast cfg ⟨.header, buf, none⟩ b).next := by
  have hpo := headerNeed_le_packetOverhead h
  have hfull : (buf ++ [b]).length = headerNeed cfg := List.length_append.trans hn
  obtain ⟨v, hv⟩ : ∃ v, v = le (slice (buf ++ [b]) cfg.lengthOffset (headerNeed cfg)) := ⟨_, rfl⟩
  rcases Nat.lt_or_ge cfg.maxLen v with hm | hm
  · cases hf : find ((buf ++ [b]).drop 1) cfg.delimiter with
    | none => rw [headerLast_of_reject_none hv.symm hm hf]; rfl
    | some q =>
      rw [headerLast_of_reject_some hv.symm hm hf]
      refine automatonOf_of_header (phaseOf_eq_header h (head?_drop_find hf) ?_)
      have := two_le_headerNeed h
      simp only [List.length_drop, hfull]
      omega
  · by_cases hbare : headerNeed cfg = cfg.packetOverhead ∧ v = 0
    · rw [headerLast_of_bare hv.symm hm hbare]; rfl
    · have hl := (lengthAt_eq_some_iff h _ v).mpr ⟨hfull.ge, hv⟩
      have hopen : (buf ++ [b]).length < cfg.packetOverhead + v := by omega
      rw [headerLast_of_valid hv.symm hm hbare]
      exact automatonOf_of_body h (List.mem_head?_append_of_mem_head? hh) hl hm hopen

/-- Settles O41: one equation of `headerLast` per outcome; what is left in HEADER or BODY has that phase and length by
`headerLast_keeps_view`. -/
theorem lastHeaderByteJudgesLength : Obligations.LastHeaderByteJudgesLength := by
  unfold Obligations.LastHeaderByteJudgesLength
  intro s b v hq hph hn hv
  have h := hq.1
  have hh := head?_of_header h hph
  have htail : (s.buf ++ [b]).drop 1 = s.buf.tail ++ [b] := by
    rw [List.drop_one, List.tail_append_of_ne_nil (by rintro hnil; simp [hnil] at hh)]
  have hlen : (s.buf ++ [b]).length = headerNeed s.cfg := List.length_append.trans hn
  have hle : le (slice (s.buf ++ [b]) s.cfg.lengthOffset (headerNeed s.cfg)) = v :=
    hv ▸ ((lengthAt_eq_some_iff h _ _).mp (lengthAt_eq_lengthFieldSum h hlen.ge)).2.symm
  have hexec := exec_byteInstr_of_selecting (k := .headerLast) (b := b) h (automatonOf_of_header hph) ⟨hph, hn⟩
  have hview := headerLast_keeps_view h hh hn b
  rw [transition, Transition.extraction] at hexec
  refine ⟨fun hm hd => ?_, fun q hm hat hbefore => ?_, fun hm hH hz => ?_, fun hm hmore => ?_⟩
  · rw [headerLast_of_reject_none hle hm (htail ▸ (find_eq_none_iff _ _).mpr hd), deliver_event] at hexec
    exact hexec
  · rw [headerLast_of_reject_some hle hm (htail ▸ (find_eq_some_iff _ _ _).mpr ⟨hat, hbefore⟩), htail] at hexec hview
    exact ⟨hexec.trans (congrArg _ (deliver_event ..)), (automatonOf_eq_some_iff.mp hview).1⟩
  · rw [headerLast_of_bare hle hm ⟨hH, hz⟩, deliver_packet] at hexec
    exact hexec
  · rw [headerLast_of_valid hle hm hmore] at hexec hview
    obtain ⟨hbody, -, hlatched⟩ := automatonOf_eq_some_iff.mp hview
    exact ⟨hexec.trans (congrArg _ (deliver_quiet ..)), hbody, hlatched⟩

/-! ### Exactly one transition, and it is PUSH (R167, R168) -/

/-- Settles O44: the row that the byte takes is the only one whose gate opens. -/
theorem exactlyOneTransitionApplies : Obligations.ExactlyOneTransitionApplies := by
  unfold Obligations.ExactlyOneTransitionApplies
  rintro s ⟨h, hq⟩
  constructor
  · intro b
    obtain ⟨k, hk⟩ := exists_byteKindAt h hq b
    refine ⟨byteInstr k b, mem_byteRowsOf_iff.mpr ⟨k, rfl⟩, (decode_serial_eq_ok_iff h _ _ _).mpr ⟨k, hk, rfl⟩,
      ⟨_, exec_byteInstr_of_byteKindAt h hk⟩, fun j hj hne => ?_⟩
    obtain ⟨k', rfl⟩ := mem_byteRowsOf_iff.mp hj
    have honly (hsel : selected s.cfg s.buf (byteInstr k' b) = true) : k' = k := by
      rw [selected_byteInstr, beq_iff_eq, hk] at hsel
      exact (Option.some.inj hsel).symm
    exact exec_refused h (by cases k' <;> nofun) honly (by rintro rfl; exact hne rfl)
  · intro i t hi hexec
    have hcleared : exec i s = .next s.cleared := hi.elim (· ▸ exec_reset h) (· ▸ exec_endStream h)
    cases hcleared.symm.trans hexec
    rfl

/-- Settles O45: whatever transition answers, it answers the arrival of its byte. -/
theorem transitionEqualsPush : Obligations.TransitionEqualsPush := by
  unfold Obligations.TransitionEqualsPush
  rintro s b ⟨h, hq⟩
  obtain ⟨k, hk⟩ := exists_byteKindAt h hq b
  have hexec := exec_byteInstr_of_byteKindAt h hk
  have haccept := exec_byteInstr_next ⟨h, hq⟩ hexec
  exact ⟨_, _, (decode_serial_eq_ok_iff h _ _ _).mpr ⟨k, hk, rfl⟩, hexec, haccept ▸ exec_push h b⟩

/-! ### The automaton on its own registers (R160, R168) -/

/-- After a transition the registers are those of the accumulator that it leaves. -/
theorem transition_keeps_view {cfg : FrameConfig} (h : admitted cfg = true) {buf : Bytes} {a : Automaton}
    (ha : automatonOf cfg buf = some a) {b : Byte} {k : ByteKind} (hk : byteKindAt cfg buf b = some k) :
    automatonOf cfg (transition cfg a b k).next.buf = some (transition cfg a b k).next := by
  have hs := selecting_of_byteKindAt h hk
  cases k with
  | huntDelim =>
    obtain ⟨rfl, rfl⟩ := hs
    cases ha
    exact automatonOf_of_header (phaseOf_eq_header h rfl (two_le_headerNeed h))
  | huntNoise =>
    obtain ⟨rfl, -⟩ := hs
    cases ha
    rfl
  | headerAcc =>
    obtain ⟨hph, hn⟩ := hs
    cases (automatonOf_of_header hph).symm.trans ha
    have hh : (buf ++ [b]).head? = some cfg.delimiter := List.mem_head?_append_of_mem_head? (head?_of_header h hph)
    exact automatonOf_of_header (phaseOf_eq_header h hh (List.length_append.trans_lt hn))
  | headerLast =>
    obtain ⟨hph, hn⟩ := hs
    cases (automatonOf_of_header hph).symm.trans ha
    exact headerLast_keeps_view h (head?_of_header h hph) hn b
  | bodyAcc =>
    obtain ⟨l, hl, hn⟩ := hs
    cases (automatonOf_of_latched hl).symm.trans ha
    obtain ⟨hh, hlen, hm⟩ := candidate_of_latched h hl
    exact automatonOf_of_body h (List.mem_head?_append_of_mem_head? hh) (lengthAt_append h hlen [b]) hm
      (List.length_append.trans_lt hn)
  | bodyLast => rfl

/-- From any registers that are those of the accumulator, the automaton and the PUSHes go the same way (R168). -/
theorem autoRun_eq_pushes (bytes : Bytes) : ∀ {s : State} {a : Automaton}, s.Quiescent →
    automatonOf s.cfg s.buf = some a →
    ∃ r t, autoRun s.cfg a bytes = some r ∧ execAll (bytes.map .push) s = .next t ∧
      automatonOf t.cfg t.buf = some r.next ∧ t.out = s.out ++ r.packets ∧ t.diag = s.diag ++ r.events := by
  induction bytes with
  | nil =>
    intro s a _ ha
    exact ⟨⟨a, [], []⟩, s, rfl, rfl, ha, (List.append_nil _).symm, (List.append_nil _).symm⟩
  | cons b rest ih =>
    rintro s a ⟨h, hq⟩ ha
    obtain ⟨k, hk⟩ := exists_byteKindAt h hq b
    have hrow : byteRow s.cfg a b = some k := by rwa [byteKindAt, ha, Option.bind_some] at hk
    have hexec := exec_byteInstr_of_byteKindAt h hk
    rw [automaton_of_view ha] at hexec
    have hstep := (exec_byteInstr_next ⟨h, hq⟩ hexec).symm
    have hview : automatonOf (s.accept [b]).cfg (s.accept [b]).buf = some (transition s.cfg a b k).next := by
      rw [hstep]
      exact transition_keeps_view h ha hk
    obtain ⟨r, t, hrun, hpush, hend, hout, hdiag⟩ := ih (accept_quiescent h [b]) hview
    rw [State.accept_cfg] at hrun
    refine ⟨⟨r.next, (transition s.cfg a b k).packets ++ r.packets, (transition s.cfg a b k).events ++ r.events⟩, t,
      ?_, ?_, hend, ?_, ?_⟩
    · simp only [autoRun, hrow, Option.bind_some, hrun, Option.map_some]
    · rw [List.map_cons, execAll_cons_of_next (exec_push h b), hpush]
    · rw [hout, hstep, State.deliver_out, List.append_assoc]; rfl
    · rw [hdiag, hstep, State.deliver_diag, List.append_assoc]; rfl

/-- Settles O46: the automaton's reset state is its view of an empty accumulator. -/
theorem automatonEqualsLoop : Obligations.AutomatonEqualsLoop := by
  unfold Obligations.AutomatonEqualsLoop
  intro s bytes h hbuf
  have ha : automatonOf s.cfg s.buf = some automatonReset := by rw [hbuf]; rfl
  obtain ⟨r, t, hrun, hpush, hview, hout, hdiag⟩ := autoRun_eq_pushes bytes (quiescent_of_nil h hbuf) ha
  obtain ⟨hph, hbuf', hlen⟩ := automatonOf_eq_some_iff.mp hview
  exact ⟨r, t, hrun, hpush, hbuf', hout, hdiag, hph, hlen⟩

end Sys2Proof.Machine
end
